-- ==== Sys2Proof/Word.lean ====
section
/-! DEFINITION. The word types of the core: bytes, 16-bit fields, 32-bit words, and bit sequences. -/

namespace Sys2Proof

/-- An 8-bit byte of the IN or OUT window (20_memory.md R52, R53); the bit vector of `Host.Cell`. -/
abbrev Byte := BitVec 8

/-- A 16-bit operand field or register field (30_encoding.md R72, 10_state.md R28). -/
abbrev Half := BitVec 16

/-- A 32-bit register or command word (10_state.md section 2, 30_encoding.md R70). -/
abbrev Word := BitVec 32

/-- A bit sequence: a finite list of bits in the order they are appended (00_scope.md R9). -/
abbrev Bits := List Bool

end Sys2Proof
end

