-- ==== Sys2Proof/Syntax.lean ====
section
/-! DEFINITION. The commands of the core as syntax: one constructor of `Instr` per row of spec/opcode_table.json. -/

namespace Sys2Proof

/-- An error-correction level, from least to most redundant (30_encoding.md R74). -/
inductive Level where
  | L | M | Q | H
  deriving DecidableEq, Repr

/-- An encoding mode: numeric, alphanumeric, byte (30_encoding.md R75). Kanji has no command (00_scope.md R5). -/
inductive Mode where
  | num | aln | byt
  deriving DecidableEq, Repr

/-- A capacity table named by `CAPQ` (30_encoding.md R76). -/
inductive TblSel where
  | dc | num | aln | byt | kan
  deriving DecidableEq, Repr

/-- A command (30_encoding.md R71, R72, R77). -/
inductive Instr where
  /-- `CLR`: create an empty stream (40_bitstream.md R100). -/
  | clr
  /-- `APB cnt, val`: append the top `cnt` bits of `val` (40_bitstream.md R101). -/
  | apb (cnt : BitVec 5) (val : Half)
  /-- `APR bits`: append the first `bits` bits of the source bytes (40_bitstream.md R104). -/
  | apr (bits : Half)
  /-- `ECNT mode, ver, count`: append a character-count indicator (41_count.md R121). -/
  | ecnt (mode : Mode) (ver : BitVec 6) (count : Half)
  /-- `PAD tgt`: pad the stream to `8 * tgt` bits (43_padding.md R162). -/
  | pad (tgt : Half)
  /-- `ENUM lvl, ver`: encode the text as one numeric segment (42_mode_encoders.md R150). -/
  | enum (lvl : Level) (ver : BitVec 6)
  /-- `EALN lvl, ver`: encode the text as one alphanumeric segment (42_mode_encoders.md R151). -/
  | ealn (lvl : Level) (ver : BitVec 6)
  /-- `EBYT lvl, ver`: encode the text as one byte segment (42_mode_encoders.md R152). -/
  | ebyt (lvl : Level) (ver : BitVec 6)
  /-- `EBEST lvl, ver`: encode the text in the first mode that succeeds (44_selector_tables.md R170). -/
  | ebest (lvl : Level) (ver : BitVec 6)
  /-- `CAPQ tbl, lvl, ver`: read one capacity-table entry (44_selector_tables.md R172). -/
  | capq (tbl : TblSel) (lvl : Level) (ver : BitVec 6)
  deriving DecidableEq, Repr

end Sys2Proof
end

