-- ==== Sys2Proof/WellFormed.lean ====
section
/-! DEFINITION. Which terms of `Instr` a legal command word stands for (30_encoding.md R72, R78). -/

namespace Sys2Proof

/-- The one operand range the syntax does not settle by itself: `APB`'s `CNT` is 0..16 (30_encoding.md R72, R78).
`MODE = 3` and `TBL > 4` have no term of `Mode` or `TblSel`, every `LVL` is a level (R74), and every 6-bit `VER` is
decodable (R72). -/
def Instr.wf : Instr → Bool
  | .clr => true
  | .apb cnt _ => decide (cnt.toNat ≤ 16)
  | .apr _ => true
  | .ecnt _ _ _ => true
  | .pad _ => true
  | .enum _ _ => true
  | .ealn _ _ => true
  | .ebyt _ _ => true
  | .ebest _ _ => true
  | .capq _ _ _ => true

end Sys2Proof
end

