-- ==== Sys2Proof/Decode.lean ====
section
/-! DEFINITION. Decoding a 32-bit command word (30_encoding.md R77-R79), and the encoder written from the formats of R71. -/

namespace Sys2Proof

/-- The ten command opcodes (30_encoding.md R77). -/
inductive Op where
  | clr | apb | apr | ecnt | pad | enum | ealn | ebyt | ebest | capq
  deriving DecidableEq, Repr

/-- A row of the opcode map: a word `w` is the command when `w AND mask = pattern` (30_encoding.md R77). -/
structure Row where
  op : Op
  pattern : Word
  mask : Word
  deriving DecidableEq, Repr

/-- Why a word is illegal (30_encoding.md R78). -/
inductive Illegal where
  /-- `OPC` is 0x0 or 0xB to 0xF. -/
  | reservedOpcode
  /-- A reserved bit of the opcode's format is 1. -/
  | reservedBit
  /-- `APB` with `CNT > 16`. -/
  | cntOver16
  /-- `ECNT` with `MODE = 3`. -/
  | mode3
  /-- `CAPQ` with `TBL > 4`. -/
  | tblOver4
  deriving DecidableEq, Repr

/-- What `Decode` answers: a command, or illegal by name (30_encoding.md R79). -/
inductive Decoded where
  | ok (i : Instr)
  | illegal (why : Illegal)
  deriving DecidableEq, Repr

/-- The opcode map (30_encoding.md R77). -/
def rows : List Row := [
  ⟨.clr,   0x10000000#32, 0xFFFFFFFF#32⟩,
  ⟨.apb,   0x20000000#32, 0xFFE00000#32⟩,
  ⟨.apr,   0x30000000#32, 0xFFFF0000#32⟩,
  ⟨.ecnt,  0x40000000#32, 0xF3C00000#32⟩,
  ⟨.pad,   0x50000000#32, 0xFFFF0000#32⟩,
  ⟨.enum,  0x60000000#32, 0xFCC0FFFF#32⟩,
  ⟨.ealn,  0x70000000#32, 0xFCC0FFFF#32⟩,
  ⟨.ebyt,  0x80000000#32, 0xFCC0FFFF#32⟩,
  ⟨.ebest, 0x90000000#32, 0xFCC0FFFF#32⟩,
  ⟨.capq,  0xA0000000#32, 0xFCC0FFF8#32⟩]

/-- `w AND mask = pattern` (30_encoding.md R77). -/
def Row.hits (r : Row) (w : Word) : Bool := w &&& r.mask == r.pattern

/-- The fields of 30_encoding.md R71. -/
def fieldOPC (w : Word) : BitVec 4 := w.extractLsb' 28 4
def fieldCNT (w : Word) : BitVec 5 := w.extractLsb' 16 5
def fieldLow (w : Word) : Half := w.extractLsb' 0 16
def fieldMODE (w : Word) : BitVec 2 := w.extractLsb' 26 2
def fieldVER (w : Word) : BitVec 6 := w.extractLsb' 16 6
def fieldLVL (w : Word) : BitVec 2 := w.extractLsb' 24 2
def fieldTBL (w : Word) : BitVec 3 := w.extractLsb' 0 3

/-- `LVL`: 0 = L, 1 = M, 2 = Q, 3 = H (30_encoding.md R74). -/
def Level.ofCode (c : BitVec 2) : Level :=
  match c.toNat with
  | 0 => .L
  | 1 => .M
  | 2 => .Q
  | _ => .H

def Level.code : Level → BitVec 2
  | .L => 0#2
  | .M => 1#2
  | .Q => 2#2
  | .H => 3#2

/-- `MODE`: 0 numeric, 1 alphanumeric, 2 byte, 3 illegal (30_encoding.md R75). -/
def Mode.ofCode (c : BitVec 2) : Option Mode :=
  match c.toNat with
  | 0 => some .num
  | 1 => some .aln
  | 2 => some .byt
  | _ => none

def Mode.code : Mode → BitVec 2
  | .num => 0#2
  | .aln => 1#2
  | .byt => 2#2

/-- `TBL`: 0 = T_DC, 1 = T_NUM, 2 = T_ALN, 3 = T_BYT, 4 = T_KAN; 5, 6, 7 illegal (30_encoding.md R76). -/
def TblSel.ofCode (c : BitVec 3) : Option TblSel :=
  match c.toNat with
  | 0 => some .dc
  | 1 => some .num
  | 2 => some .aln
  | 3 => some .byt
  | 4 => some .kan
  | _ => none

def TblSel.code : TblSel → BitVec 3
  | .dc => 0#3
  | .num => 1#3
  | .aln => 2#3
  | .byt => 3#3
  | .kan => 4#3

/-- The command of opcode `op` with its fields sliced from `w`, or illegal where a field is (30_encoding.md R79). -/
def fieldsOf (w : Word) : Op → Decoded
  | .clr => .ok .clr
  | .apb => if (fieldCNT w).toNat > 16 then .illegal .cntOver16 else .ok (.apb (fieldCNT w) (fieldLow w))
  | .apr => .ok (.apr (fieldLow w))
  | .ecnt =>
    match Mode.ofCode (fieldMODE w) with
    | none => .illegal .mode3
    | some m => .ok (.ecnt m (fieldVER w) (fieldLow w))
  | .pad => .ok (.pad (fieldLow w))
  | .enum => .ok (.enum (Level.ofCode (fieldLVL w)) (fieldVER w))
  | .ealn => .ok (.ealn (Level.ofCode (fieldLVL w)) (fieldVER w))
  | .ebyt => .ok (.ebyt (Level.ofCode (fieldLVL w)) (fieldVER w))
  | .ebest => .ok (.ebest (Level.ofCode (fieldLVL w)) (fieldVER w))
  | .capq =>
    match TblSel.ofCode (fieldTBL w) with
    | none => .illegal .tblOver4
    | some t => .ok (.capq t (Level.ofCode (fieldLVL w)) (fieldVER w))

/-- `OPC` is one of the ten commands' (30_encoding.md R77, R78). -/
def opcodeUsed (w : Word) : Bool := decide (1 ≤ (fieldOPC w).toNat ∧ (fieldOPC w).toNat ≤ 0xA)

/-- `Decode`, total on every 32-bit word (30_encoding.md R79). -/
def decode (w : Word) : Decoded :=
  match rows.find? (fun r => r.hits w) with
  | some r => fieldsOf w r.op
  | none => if opcodeUsed w then .illegal .reservedBit else .illegal .reservedOpcode

/-- A field's bits at bit `lo` of a word, every other bit 0 (30_encoding.md R71, R81). -/
def place (lo : Nat) {n : Nat} (field : BitVec n) : Word := field.setWidth 32 <<< lo

/-- Format E: `OPC << 28 | lvl << 24 | ver << 16` (30_encoding.md R71, R81). -/
def encodeE (opc : BitVec 4) (lvl : Level) (ver : BitVec 6) : Word :=
  place 28 opc ||| place 24 lvl.code ||| place 16 ver

/-- The word of a command, as the table of 30_encoding.md R81 composes it from its fields; the bit positions are those of
R71 and the opcodes those of R77. -/
def encode : Instr → Word
  | .clr => place 28 0x1#4
  | .apb cnt val => place 28 0x2#4 ||| place 16 cnt ||| place 0 val
  | .apr nbits => place 28 0x3#4 ||| place 0 nbits
  | .ecnt mode ver count => place 28 0x4#4 ||| place 26 mode.code ||| place 16 ver ||| place 0 count
  | .pad tgt => place 28 0x5#4 ||| place 0 tgt
  | .enum lvl ver => encodeE 0x6#4 lvl ver
  | .ealn lvl ver => encodeE 0x7#4 lvl ver
  | .ebyt lvl ver => encodeE 0x8#4 lvl ver
  | .ebest lvl ver => encodeE 0x9#4 lvl ver
  | .capq tbl lvl ver => place 28 0xA#4 ||| place 24 lvl.code ||| place 16 ver ||| place 0 tbl.code

/-- The command word of an opcode-table word: every command is one 32-bit word (30_encoding.md R70), so bit `k` of the
table is bit `k` of the word, and the bits above `nbits` are 0. -/
def tableWord (nbits w : Nat) : Word := BitVec.ofNat 32 (w % 2 ^ nbits)

/-- What the decoder reads from an opcode-table word. -/
def decodeTableWord (nbits w : Nat) : Option Instr :=
  match decode (tableWord nbits w) with
  | .ok i => some i
  | .illegal _ => none

end Sys2Proof
end

