-- ==== Sys2Proof/Config.lean ====
section
/-! DEFINITION. The parameters an implementation fixes (00_scope.md R7) and the values the spec leaves free.

`Params` is the configuration "a model takes as an argument" (R7): it stands in `State.cfg`, no step changes it, and a
statement about every state holds for every value of it. The opaque constants below have no body: nothing can evaluate
them or prove a value of them. -/

namespace Sys2Proof

/-- A capacity table: 4 rows (levels L, M, Q, H) of 40 entries (versions 1 to 40), each 0..65535
(10_state.md R37, 00_scope.md R7). Column `ver - 1` of a row is version `ver`. -/
structure CapTable where
  rowL : Vector Half 40
  rowM : Vector Half 40
  rowQ : Vector Half 40
  rowH : Vector Half 40
  deriving DecidableEq, Repr, Inhabited

/-- The implementation parameters of 00_scope.md R7. -/
structure Params where
  /-- `P_BUF_BYTES`, the size of the stream buffer and OUT window. -/
  bufBytes : Nat
  /-- `P_IN_BYTES`, the size of the IN window. -/
  inBytes : Nat
  /-- `T_DC`, total data codewords. -/
  tDC : CapTable
  /-- `T_NUM`; unit not in any source (44_selector_tables.md R173). -/
  tNUM : CapTable
  /-- `T_ALN`; as `tNUM`. -/
  tALN : CapTable
  /-- `T_BYT`; as `tNUM`. -/
  tBYT : CapTable
  /-- `T_KAN`; as `tNUM`. -/
  tKAN : CapTable
  deriving DecidableEq, Repr

/-- OPEN: the numeric capacity table at reset (00_scope.md R7, 93_implementation_defined.md section 1 item 1; log 6). -/
opaque Config.tNUM : CapTable

/-- OPEN: the alphanumeric capacity table at reset (as `Config.tNUM`; log 6). -/
opaque Config.tALN : CapTable

/-- OPEN: the byte capacity table at reset (as `Config.tNUM`; log 6). -/
opaque Config.tBYT : CapTable

/-- OPEN: the Kanji capacity table at reset (as `Config.tNUM`; log 6). -/
opaque Config.tKAN : CapTable

/-- FREE VALUE: the byte the IN window holds at index `i` in the period after the `epoch`-th reset while the host has
not written it (10_state.md R35, R36; 60_exceptions.md R189). Only a host read returns it; DEDUCED from R36 and R60
that it does not change from one read to the next (log 9). -/
opaque Config.unwrittenByte (epoch i : Nat) : Byte

end Sys2Proof
end

