-- ==== Sys2Proof/Machine/Capacity.lean ====
section
/-! DEFINITION. The capacity tables as read-only data: lookup, the recommended `T_DC`, the parameters at reset, and the
constraints of 00_scope.md R7. -/

namespace Sys2Proof

/-- Row `lvl` of a table (30_encoding.md R74, 10_state.md R37). -/
def CapTable.row (t : CapTable) : Level → Vector Half 40
  | .L => t.rowL
  | .M => t.rowM
  | .Q => t.rowQ
  | .H => t.rowH

/-- `table[lvl][ver]`, column `ver - 1` (44_selector_tables.md R172). Every user has checked `1 ≤ ver ≤ 40` first
(R121, R141, R172), so the `0` outside that range is never used (log 19). -/
def CapTable.entry (t : CapTable) (lvl : Level) (ver : Nat) : Half :=
  (t.row lvl)[ver - 1]?.getD 0

/-- The table `CAPQ` selects (30_encoding.md R76, 44_selector_tables.md R172). -/
def Params.table (p : Params) : TblSel → CapTable
  | .dc => p.tDC
  | .num => p.tNUM
  | .aln => p.tALN
  | .byt => p.tBYT
  | .kan => p.tKAN

/-- `T_DC[lvl][ver]`, in 8-bit codewords (00_scope.md R7). -/
def Params.codewords (p : Params) (lvl : Level) (ver : Nat) : Nat :=
  (p.tDC.entry lvl ver).toNat

/-- The constraints of 00_scope.md R7 and 70_reset_and_hazards.md R202: "A model given tables that break them is not a
model of this hardware" (R202). -/
def Params.valid (p : Params) : Bool :=
  decide (p.bufBytes ≤ 4096) && decide (1 ≤ p.inBytes) && decide (p.inBytes ≤ 4096) &&
    [Level.L, Level.M, Level.Q, Level.H].all fun lvl =>
      (p.tDC.row lvl).toList.all fun e => decide (1 ≤ e.toNat) && decide (e.toNat ≤ p.bufBytes)

/-- The recommended `T_DC` (93_implementation_defined.md section 3, PRESUMED there from ISO/IEC 18004; log 5). -/
def Params.recommendedTDC : CapTable where
  rowL := #v[
    19, 34, 55, 80, 108, 136, 156, 194, 232, 274,
    324, 370, 428, 461, 523, 589, 647, 721, 795, 861,
    932, 1006, 1094, 1174, 1276, 1370, 1468, 1531, 1631, 1735,
    1843, 1955, 2071, 2191, 2306, 2434, 2566, 2702, 2812, 2956]
  rowM := #v[
    16, 28, 44, 64, 86, 108, 124, 154, 182, 216,
    254, 290, 334, 365, 415, 453, 507, 563, 627, 669,
    714, 782, 860, 914, 1000, 1062, 1128, 1193, 1267, 1373,
    1455, 1541, 1631, 1725, 1812, 1914, 1992, 2102, 2216, 2334]
  rowQ := #v[
    13, 22, 34, 48, 62, 76, 88, 110, 132, 154,
    180, 206, 244, 261, 295, 325, 367, 397, 445, 485,
    512, 568, 614, 664, 718, 754, 808, 871, 911, 985,
    1033, 1115, 1171, 1231, 1286, 1354, 1426, 1502, 1582, 1666]
  rowH := #v[
    9, 16, 26, 36, 46, 60, 66, 86, 100, 122,
    140, 158, 180, 197, 223, 253, 283, 313, 341, 385,
    406, 442, 464, 514, 538, 596, 628, 661, 701, 745,
    793, 845, 901, 961, 986, 1054, 1096, 1142, 1222, 1276]

/-- The parameters the machine has at reset: the default sizes of 00_scope.md R7 (log 4), the recommended `T_DC`
(log 5), and the OPEN per-mode tables (log 6). -/
def Params.default : Params where
  bufBytes := 4096
  inBytes := 4096
  tDC := Params.recommendedTDC
  tNUM := Config.tNUM
  tALN := Config.tALN
  tBYT := Config.tBYT
  tKAN := Config.tKAN

end Sys2Proof
end

