-- ==== Sys2Proof/Machine/State.lean ====
section
/-! DEFINITION. The state of one core as plain data, the turns its agents take, the model faults, and the state after
reset. -/

namespace Sys2Proof.Machine

/-- The result codes of `STATUS.ERR` (60_exceptions.md R180). Codes 6 to 15 are never written (R25, R180), so there is
no constructor for them. -/
inductive ErrCode where
  /-- 0: the command completed without error. -/
  | ok
  /-- 1 `E_CHARSET`: a byte of the text is outside the mode's alphabet. -/
  | charset
  /-- 2 `E_VERSION`: `VER` is 0 or 41..63 in a command that uses a version. -/
  | version
  /-- 3 `E_RANGE`: no room, too few source bits, a count too wide, over capacity, a target past the buffer. -/
  | range
  /-- 4 `E_NOMODE`: `EBEST`, all three modes failed. -/
  | noMode
  /-- 5 `E_ILLEGAL`: an illegal command word, or the source descriptor passes the end of the IN window. -/
  | illegal
  deriving DecidableEq, Repr

/-- The width of a host access (20_memory.md R56). -/
inductive Width where
  | w8 | w16 | w32
  deriving DecidableEq, Repr

/-- Data on the host's side of an access, of its own width. -/
inductive RData where
  | b8 (b : Byte)
  | b16 (h : Half)
  | b32 (w : Word)
  deriving DecidableEq, Repr

/-- A host access at a byte offset 0x0000 to 0x3FFF (20_memory.md R55), each one atomic (R59). -/
inductive Access where
  | read (off : BitVec 14) (width : Width)
  | write (off : BitVec 14) (data : RData)
  deriving DecidableEq, Repr

/-- Whose turn a step is (00_scope.md R6, 20_memory.md R61, 70_reset_and_hazards.md R200, R203; log 1). -/
inductive Turn where
  /-- The host makes one access. -/
  | host (a : Access)
  /-- The core executes the pending command, if there is one. -/
  | core
  /-- The platform asserts the reset input. -/
  | reset
  deriving DecidableEq, Repr

/-- The IN window's written bytes as (index, byte) pairs, strictly rising in the index; a byte that is not listed has
not been written since reset (10_state.md R35, R36). -/
abbrev Memory := List Host.Cell

/-- The model faults of 60_exceptions.md R188. Each is SAFE: the model stops where the spec fixes no behaviour. -/
inductive Fault where
  /-- `fault_unwritten_in(i)`: `APR` or an encode command reads IN byte `i`, which the host has not written since reset
  (60_exceptions.md R189). Raised by the core's reads. Safe. -/
  | unwrittenIn (i : Nat)
  /-- `fault_access_shape(off, width)`: an access that is neither an aligned 32-bit one to the registers nor an 8-bit
  one to the windows (20_memory.md R56). Raised by the host's access. Safe. -/
  | accessShape (off : Nat) (width : Width)
  /-- `fault_cmd_while_busy`: a `CMD` write while `STATUS.BUSY = 1` (70_reset_and_hazards.md R206). Raised by the
  host's access. Safe. -/
  | cmdWhileBusy
  /-- `fault_operand_write_while_busy(off)`: a write to `SRC_OFF`, `SRC_LEN` or an IN byte while `STATUS.BUSY = 1`
  (70_reset_and_hazards.md R207). Raised by the host's access. Safe. -/
  | operandWriteWhileBusy (off : Nat)
  deriving DecidableEq, Repr

/-- The refusals. -/
inductive Refusal where
  /-- An instruction with no meaning yet, by its mnemonic: raised by `exec`'s arm alone. Safe. No arm raises it. -/
  | notModelled (mnemonic : String)
  deriving DecidableEq, Repr

/-- The state of one core (10_state.md). `STATUS.BUSY` (R33), `BITLEN`, `OUTLEN`, `BUF` (R22, R23), `INFO` (R30) and the
written marks of the IN bytes (R35) are views of these fields, stored nowhere twice. -/
structure State where
  /-- `S`, the bit stream (R20). -/
  stream : Bits
  /-- `PEND`, the accepted command word, or empty (R33). -/
  pend : Option Word
  /-- `STATUS.ERR` (R25, R32). -/
  err : ErrCode
  /-- `SRC_OFF` bits 15:0 (R28). -/
  srcOff : Half
  /-- `SRC_LEN` bits 15:0 (R28). -/
  srcLen : Half
  /-- `CAPVAL` bits 15:0 (R29). -/
  capVal : Half
  /-- `IN`, the IN window (R36), with the written marks of R35. -/
  inMem : Memory
  /-- The parameters and capacity tables (R30, R37): constant. -/
  cfg : Params
  /-- MODEL'S OWN: the turns to come, first one next; with none listed the core moves (log 1, log 2). -/
  turns : List Turn
  /-- MODEL'S OWN: the read data of the host's last read, the core's only output (70_reset_and_hazards.md R208;
  log 3). -/
  lastRead : Option RData
  /-- MODEL'S OWN: how many resets there have been, the index of `Config.unwrittenByte` (log 9). -/
  epoch : Nat
  deriving DecidableEq, Repr

/-- The machine right after reset (10_state.md R38, 70_reset_and_hazards.md R200). The three fields of the model's own
hold the values of log 7. -/
def State.reset : State where
  stream := []
  pend := none
  err := .ok
  srcOff := 0
  srcLen := 0
  capVal := 0
  inMem := []
  cfg := Params.default
  turns := []
  lastRead := none
  epoch := 0

end Sys2Proof.Machine
end

