-- ==== Sys2Proof/Machine/Ops.lean ====
section
/-! DEFINITION. The named operations over the IN window, the bit stream and the registers; completing a command with a
result code, which is all that raising an error is on this hardware (60_exceptions.md R186). -/

namespace Sys2Proof.Machine

/-- What an operation of the machine answers. -/
abbrev Outcome := Host.Outcome State Fault Refusal

/-! ### The IN window -/

/-- `IN[i]` if the host has written it since reset (10_state.md R35, R36). -/
def Memory.read : Memory → Nat → Option Byte
  | [], _ => none
  | (a, b) :: rest, i => if i = a then some b else Memory.read rest i

/-- The window with `IN[i] <- v`, still in rising order (20_memory.md R52). -/
def Memory.write : Memory → Nat → Byte → Memory
  | [], i, v => [(i, v)]
  | (a, b) :: rest, i, v =>
    if i < a then (i, v) :: (a, b) :: rest
    else if i = a then (i, v) :: rest
    else (a, b) :: Memory.write rest i v

/-- The canonical form: indexes strictly rising. Nothing is said of the bytes, since an unlisted byte reads as no value
at all. -/
abbrev Memory.wf (m : Memory) : Prop := m.Pairwise (fun x y => x.1 < y.1)

/-! ### Bit sequences -/

/-- `bits_w(v)`: the `w` low bits of `v`, most significant first (00_scope.md R9, 20_memory.md R51). -/
def bits : Nat → Nat → Bits
  | 0, _ => []
  | w + 1, v => v.testBit w :: bits w v

/-- The bits of a byte sequence, each byte from its bit 7 down (40_bitstream.md R104, 42_mode_encoders.md R139). -/
def byteBits : List Byte → Bits
  | [] => []
  | b :: rest => bits 8 b.toNat ++ byteBits rest

/-! ### The stream and its views -/

/-- `N = |S|` (10_state.md R20, R26). -/
def State.bitLen (s : State) : Nat := s.stream.length

/-- `⌈N/8⌉` (10_state.md R23). -/
def State.outLen (s : State) : Nat := (s.bitLen + 7) / 8

/-- `S[i]`, or 0 past the end (10_state.md R22). -/
def State.streamBit (s : State) (i : Nat) : Bool := s.stream.getD i false

/-- `BUF[k]`: bit `7 - j` is `S[8k + j]`, or 0 past the end (10_state.md R22, 20_memory.md R50). -/
def State.bufByte (s : State) (k : Nat) : Byte :=
  BitVec.ofBoolListBE [s.streamBit (8 * k), s.streamBit (8 * k + 1), s.streamBit (8 * k + 2), s.streamBit (8 * k + 3),
    s.streamBit (8 * k + 4), s.streamBit (8 * k + 5), s.streamBit (8 * k + 6), s.streamBit (8 * k + 7)]

/-- `Room(k)`: the stream can take `k` more bits (40_bitstream.md R99). -/
def State.room (s : State) (k : Nat) : Bool := decide (s.bitLen + k ≤ 8 * s.cfg.bufBytes)

/-- `S <- S ++ b` (10_state.md R21 a). -/
def State.append (s : State) (b : Bits) : State := { s with stream := s.stream ++ b }

/-- `S <- b` (10_state.md R21 b, c). -/
def State.setStream (s : State) (b : Bits) : State := { s with stream := b }

/-! ### Registers -/

/-- `STATUS.BUSY`: 1 exactly when `PEND` holds a word (10_state.md R33). -/
def State.busy (s : State) : Bool := s.pend.isSome

/-- `CAPVAL <- v` (44_selector_tables.md R172). -/
def State.setCapVal (s : State) (v : Half) : State := { s with capVal := v }

/-- `SRC_OFF <- v` (10_state.md R28). -/
def State.setSrcOff (s : State) (v : Half) : State := { s with srcOff := v }

/-- `SRC_LEN <- v` (10_state.md R28). -/
def State.setSrcLen (s : State) (v : Half) : State := { s with srcLen := v }

/-- `IN[i] <- b` (20_memory.md R52). -/
def State.setIn (s : State) (i : Nat) (b : Byte) : State := { s with inMem := s.inMem.write i b }

/-- The host has read `d`. -/
def State.setLastRead (s : State) (d : RData) : State := { s with lastRead := some d }

/-- The turns to come become `l`. -/
def State.setTurns (s : State) (l : List Turn) : State := { s with turns := l }

/-- Acceptance of a command word: `PEND <- w`, `STATUS.BUSY <- 1`, `STATUS.ERR <- 0` (10_state.md R24). -/
def State.accept (s : State) (w : Word) : State := { s with pend := some w, err := .ok }

/-- Completion with result `e`: `STATUS.ERR <- e`, `PEND` emptied, `STATUS.BUSY <- 0` (70_reset_and_hazards.md R203,
10_state.md R32). -/
def State.complete (s : State) (e : ErrCode) : State := { s with err := e, pend := none }

/-- `STATUS.ERR <- 0` at the end of a command's rule, and the command is complete (70_reset_and_hazards.md R203). -/
def succeed (s : State) : Outcome := .next (s.complete .ok)

/-- `raise E` of a low-level command, an illegal word or a bad descriptor: only `STATUS` changes
(60_exceptions.md R183, R186). There is no trap entry and no return from one (R186, R187). -/
def raise (e : ErrCode) (s : State) : Outcome := .next (s.complete e)

/-- The reset input: `PEND` discarded, the stream and every register at its reset value, every IN byte unwritten, the
parameters and tables unchanged (70_reset_and_hazards.md R200). The turns to come and the data the host has read are not
the core's; `epoch` counts the reset (log 7, log 9). -/
def State.applyReset (s : State) : State :=
  { State.reset with cfg := s.cfg, turns := s.turns, lastRead := s.lastRead, epoch := s.epoch + 1 }

end Sys2Proof.Machine
end

