-- ==== Sys2Proof/Machine/Flags.lean ====
section
/-! DEFINITION. The one condition code and the status word (10_state.md R25, R32). -/

namespace Sys2Proof.Machine

/-- The number of a result code (60_exceptions.md R180). -/
def ErrCode.code : ErrCode → BitVec 4
  | .ok => 0#4
  | .charset => 1#4
  | .version => 2#4
  | .range => 3#4
  | .noMode => 4#4
  | .illegal => 5#4

/-- `STATUS`: `BUSY` in bit 31, res0 in 30:4, `ERR` in 3:0 (10_state.md R25). -/
def State.statusWord (s : State) : Word := place 31 (BitVec.ofBool s.busy) ||| place 0 s.err.code

end Sys2Proof.Machine
end

