-- ==== Sys2Proof/Machine/Operands.lean ====
section
/-! DEFINITION. Where a command's operands come from besides its word (30_encoding.md R73): the source descriptor and the
bytes of the IN window, and the version and capacity a version field selects. -/

namespace Sys2Proof.Machine

/-- The descriptor check `SRC_OFF + SRC_LEN ≤ P_IN_BYTES`, on exact naturals (60_exceptions.md R185). -/
def State.srcFits (s : State) : Bool := decide (s.srcOff.toNat + s.srcLen.toNat ≤ s.cfg.inBytes)

/-- What reading IN bytes gives: the bytes, or the index of the first byte the host has not written since reset
(60_exceptions.md R189). -/
inductive Fetched where
  | bytes (l : List Byte)
  | unwritten (i : Nat)
  deriving DecidableEq, Repr

/-- `MemRead(off, 1)` for `n` bytes from `off`, in increasing offset order (00_scope.md R10, 20_memory.md R66). -/
def Memory.readBytes (m : Memory) : Nat → Nat → Fetched
  | _, 0 => .bytes []
  | off, n + 1 =>
    match m.read off with
    | none => .unwritten off
    | some b =>
      match Memory.readBytes m (off + 1) n with
      | .bytes l => .bytes (b :: l)
      | .unwritten i => .unwritten i

/-- The first `n` bytes of `IN[SRC_OFF ..]` (10_state.md R28). -/
def State.readSrc (s : State) (n : Nat) : Fetched := s.inMem.readBytes s.srcOff.toNat n

/-- The text `T = IN[SRC_OFF .. SRC_OFF + SRC_LEN - 1]` of an encode command, read whole before any other check
(42_mode_encoders.md R130, 60_exceptions.md R189). -/
def State.text (s : State) : Fetched := s.readSrc s.srcLen.toNat

/-- `VER` is a valid version, 1..40 (30_encoding.md R72). -/
def versionOk (ver : BitVec 6) : Bool := decide (1 ≤ ver.toNat ∧ ver.toNat ≤ 40)

end Sys2Proof.Machine
end

