-- ==== Sys2Proof/Machine/Bus.lean ====
section
/-! DEFINITION. The host's side: the address map, register and window reads and writes, the busy protocol
(20_memory.md, 70_reset_and_hazards.md section 3). -/

namespace Sys2Proof.Machine

/-- The eight registers (20_memory.md R55). -/
inductive Reg where
  | cmd | status | bitlen | outlen | srcOff | srcLen | capval | info
  deriving DecidableEq, Repr

/-- What an offset of the windows names (20_memory.md R55). -/
inductive WinLoc where
  | inByte (i : Nat)
  | outByte (k : Nat)
  | unmapped
  deriving DecidableEq, Repr

/-- The register at an offset of the register area, none where it is unmapped (20_memory.md R55). -/
def regAt (off : Nat) : Option Reg :=
  match off with
  | 0x000 => some .cmd
  | 0x004 => some .status
  | 0x008 => some .bitlen
  | 0x00C => some .outlen
  | 0x010 => some .srcOff
  | 0x014 => some .srcLen
  | 0x018 => some .capval
  | 0x01C => some .info
  | _ => none

/-- The offset of a register (20_memory.md R55). -/
def Reg.offset : Reg → BitVec 14
  | .cmd => 0x000#14
  | .status => 0x004#14
  | .bitlen => 0x008#14
  | .outlen => 0x00C#14
  | .srcOff => 0x010#14
  | .srcLen => 0x014#14
  | .capval => 0x018#14
  | .info => 0x01C#14

/-- The window byte at an offset 0x1000 to 0x3FFF (20_memory.md R52, R53, R55). -/
def windowAt (p : Params) (off : Nat) : WinLoc :=
  if 0x1000 ≤ off ∧ off < 0x1000 + p.inBytes then .inByte (off - 0x1000)
  else if 0x2000 ≤ off ∧ off < 0x2000 + p.bufBytes then .outByte (off - 0x2000)
  else .unmapped

/-- The offsets at which a 32-bit access is legal: multiples of 4 in 0x000-0x0FFF (20_memory.md R56). -/
def regShape (off : BitVec 14) : Bool := decide (off.toNat < 0x1000 ∧ off.toNat % 4 = 0)

/-- The offsets at which an 8-bit access is legal: 0x1000-0x3FFF (20_memory.md R56). -/
def winShape (off : BitVec 14) : Bool := decide (0x1000 ≤ off.toNat)

/-- The two legal shapes of an access (20_memory.md R56). -/
def legalShape (off : BitVec 14) (width : Width) : Bool :=
  match width with
  | .w32 => regShape off
  | .w16 => false
  | .w8 => winShape off

/-- The value of a register to a host read (10_state.md R24-R30). -/
def State.readReg (s : State) : Reg → Word
  | .cmd => 0
  | .status => s.statusWord
  | .bitlen => place 0 (BitVec.ofNat 16 s.bitLen)
  | .outlen => place 0 (BitVec.ofNat 16 s.outLen)
  | .srcOff => place 0 s.srcOff
  | .srcLen => place 0 s.srcLen
  | .capval => place 0 s.capVal
  | .info => place 16 (BitVec.ofNat 16 s.cfg.inBytes) ||| place 0 (BitVec.ofNat 16 s.cfg.bufBytes)

/-- The word a 32-bit read of the register area returns; every unmapped offset reads 0 (20_memory.md R57). -/
def State.readWord (s : State) (off : Nat) : Word :=
  match regAt off with
  | some r => s.readReg r
  | none => 0

/-- `IN[i]` to a host read: the byte written, or the unspecified byte the window holds (60_exceptions.md R189; log 9). -/
def State.readIn (s : State) (i : Nat) : Byte :=
  match s.inMem.read i with
  | some b => b
  | none => Config.unwrittenByte s.epoch i

/-- The byte an 8-bit read of the windows returns; every unmapped offset reads 0 (20_memory.md R52, R53, R57). -/
def State.readByte (s : State) (off : Nat) : Byte :=
  match windowAt s.cfg off with
  | .inByte i => s.readIn i
  | .outByte k => s.bufByte k
  | .unmapped => 0

/-- The data of a legal read, of the access's own width (20_memory.md R58). No 16-bit read is legal (R56), so
`hostRead` asks for the third case never. -/
def State.readData (s : State) (off : Nat) (width : Width) : RData :=
  match width with
  | .w32 => .b32 (s.readWord off)
  | .w16 => .b16 0
  | .w8 => .b8 (s.readByte off)

/-- A host read: the data is returned and nothing of the core changes, busy or not (20_memory.md R60,
60_exceptions.md R190). -/
def hostRead (off : BitVec 14) (width : Width) (s : State) : Outcome :=
  if legalShape off width then .next (s.setLastRead (s.readData off.toNat width))
  else .fault (.accessShape off.toNat width)

/-- A write that may not happen while a command is pending (70_reset_and_hazards.md R206, R207): the fault `f` while
busy, else the state `t`. -/
def unlessBusy (f : Fault) (s t : State) : Outcome := if s.busy then .fault f else .next t

/-- A 32-bit write to the register area: `CMD` accepts a command, `SRC_OFF` and `SRC_LEN` take bits 15:0, a write to a
read-only register or an unmapped offset is ignored (10_state.md R24-R30, 20_memory.md R57,
70_reset_and_hazards.md R206, R207). -/
def writeWord (off : Nat) (w : Word) (s : State) : Outcome :=
  match regAt off with
  | some .cmd => unlessBusy .cmdWhileBusy s (s.accept w)
  | some .srcOff => unlessBusy (.operandWriteWhileBusy off) s (s.setSrcOff (w.setWidth 16))
  | some .srcLen => unlessBusy (.operandWriteWhileBusy off) s (s.setSrcLen (w.setWidth 16))
  | some .status => .next s
  | some .bitlen => .next s
  | some .outlen => .next s
  | some .capval => .next s
  | some .info => .next s
  | none => .next s

/-- An 8-bit write to the windows: an IN byte takes the value, a write to the OUT window or an unmapped offset is ignored
(20_memory.md R52, R53, R57; 70_reset_and_hazards.md R207). -/
def writeByte (off : Nat) (b : Byte) (s : State) : Outcome :=
  match windowAt s.cfg off with
  | .inByte i => unlessBusy (.operandWriteWhileBusy off) s (s.setIn i b)
  | .outByte _ => .next s
  | .unmapped => .next s

/-- A host write (20_memory.md R56). Its shape is judged before anything else (log 14). -/
def hostWrite (off : BitVec 14) (d : RData) (s : State) : Outcome :=
  match d with
  | .b32 w => if regShape off then writeWord off.toNat w s else .fault (.accessShape off.toNat .w32)
  | .b16 _ => .fault (.accessShape off.toNat .w16)
  | .b8 b => if winShape off then writeByte off.toNat b s else .fault (.accessShape off.toNat .w8)

/-- One host access (70_reset_and_hazards.md R208). -/
def hostAccess (a : Access) (s : State) : Outcome :=
  match a with
  | .read off width => hostRead off width s
  | .write off d => hostWrite off d s

end Sys2Proof.Machine
end

