-- ==== Sys2Proof/Machine/Stream.lean ====
section
/-! DEFINITION. The bit-stream assembler commands `CLR`, `APB`, `APR` (40_bitstream.md). -/

namespace Sys2Proof.Machine

/-- Append `b` if there is room for all of it, else `E_RANGE` with nothing appended (40_bitstream.md R99, R105). -/
def appendOrRange (b : Bits) (s : State) : Outcome :=
  if s.room b.length then succeed (s.append b) else raise .range s

/-- `CLR`: `S <- []` (40_bitstream.md R100). -/
def execClr (s : State) : Outcome := succeed (s.setStream [])

/-- `APB cnt, val`: append `VAL[15]` down to `VAL[16 - CNT]` (40_bitstream.md R101). `CNT > 16` is refused by the
decoder already (30_encoding.md R79); R101 repeats the check. -/
def execApb (cnt : BitVec 5) (val : Half) (s : State) : Outcome :=
  if cnt.toNat > 16 then raise .illegal s
  else appendOrRange ((bits 16 val.toNat).take cnt.toNat) s

/-- The number of source bytes that contribute to `n` bits (40_bitstream.md R104). -/
def bytesFor (n : Nat) : Nat := (n + 7) / 8

/-- `APR bits`: append the first `BITS` bits of the source bytes, reading only the bytes that contribute
(40_bitstream.md R104). -/
def execApr (nbits : Half) (s : State) : Outcome :=
  if !s.srcFits then raise .illegal s
  else if nbits.toNat > 8 * s.srcLen.toNat then raise .range s
  else if !s.room nbits.toNat then raise .range s
  else
    match s.readSrc (bytesFor nbits.toNat) with
    | .unwritten i => .fault (.unwrittenIn i)
    | .bytes d => succeed (s.append ((byteBits d).take nbits.toNat))

end Sys2Proof.Machine
end

