-- ==== Sys2Proof/Machine/Count.lean ====
section
/-! DEFINITION. The character-count indicator: `CountWidth` and `ECNT` (41_count.md). -/

namespace Sys2Proof.Machine

/-- The version bands [1,9] "small", [10,26] "medium", [27,40] "large" (41_count.md R120): `small`, `medium` or `large`
by the band of `ver`, none outside 1..40. -/
def byBand (ver : BitVec 6) (small medium large : Nat) : Option Nat :=
  if !versionOk ver then none
  else if ver.toNat ≤ 9 then some small
  else if ver.toNat ≤ 26 then some medium
  else some large

/-- `CountWidth(m, ver)`, defined for `ver` in 1..40 only (41_count.md R120). -/
def countWidth (m : Mode) (ver : BitVec 6) : Option Nat :=
  match m with
  | .num => byBand ver 10 12 14
  | .aln => byBand ver 9 11 13
  | .byt => byBand ver 8 16 16

/-- `ECNT mode, ver, count`: append `COUNT` in the width the mode and version select (41_count.md R121, R123). -/
def execEcnt (mode : Mode) (ver : BitVec 6) (count : Half) (s : State) : Outcome :=
  match countWidth mode ver with
  | none => raise .version s
  | some w => if count.toNat ≥ 2 ^ w then raise .range s else appendOrRange (bits w count.toNat) s

end Sys2Proof.Machine
end

