-- ==== Sys2Proof/Machine/Pad.lean ====
section
/-! DEFINITION. The padding and terminator engine: `PadTo` and `PAD` (43_padding.md). -/

namespace Sys2Proof.Machine

/-- Bit `i` of `PADPAT`, the endless repetition of 11101100 00010001 (43_padding.md R160). -/
def padPatBit (i : Nat) : Bool := (0xEC11 : Nat).testBit (15 - i % 16)

/-- `take(r, PADPAT)`, counted from bit `i` of the pattern (43_padding.md R160). -/
def padPat : Nat → Nat → Bits
  | _, 0 => []
  | i, r + 1 => padPatBit i :: padPat (i + 1) r

/-- The terminator: `min(4, target - |s|)` zeros (43_padding.md R160 step 1). -/
def terminatorLen (len target : Nat) : Nat := min 4 (target - len)

/-- Zeros up to a byte boundary, 0 to 7 (43_padding.md R160 step 2). -/
def alignLen (len : Nat) : Nat := (8 - len % 8) % 8

/-- `PadTo(s, target)`, defined when `|s| ≤ target` and `target mod 8 = 0` (43_padding.md R160). -/
def padTo (s : Bits) (target : Nat) : Bits :=
  let s1 := s ++ List.replicate (terminatorLen s.length target) false
  let s2 := s1 ++ List.replicate (alignLen s1.length) false
  s2 ++ padPat 0 (target - s2.length)

/-- `PAD tgt`: pad the stream to `8 * TGT` bits (43_padding.md R162, R164). -/
def execPad (tgt : Half) (s : State) : Outcome :=
  if tgt.toNat > s.cfg.bufBytes then raise .range s
  else if s.bitLen > 8 * tgt.toNat then raise .range s
  else succeed (s.setStream (padTo s.stream (8 * tgt.toNat)))

end Sys2Proof.Machine
end

