-- ==== Sys2Proof/Machine/Segment.lean ====
section
/-! DEFINITION. Character sets, payloads and `EncodeSeg` (42_mode_encoders.md sections 1 to 4). -/

namespace Sys2Proof.Machine

/-- The 4-bit mode indicators (42_mode_encoders.md R131). -/
def modeIndicator : Mode → Bits
  | .num => bits 4 0b0001
  | .aln => bits 4 0b0010
  | .byt => bits 4 0b0100

/-- `IsDigit(c)`: 0x30 to 0x39 (42_mode_encoders.md R132). -/
def isDigit (c : Byte) : Bool := decide (0x30 ≤ c.toNat ∧ c.toNat ≤ 0x39)

/-- The value of a digit, `c - 0x30` (42_mode_encoders.md R132). -/
def digitVal (c : Byte) : Nat := c.toNat - 0x30

/-- `AlnVal(c)`, defined for exactly 45 bytes (42_mode_encoders.md R133). -/
def alnVal (c : Byte) : Option Nat :=
  if isDigit c then some (digitVal c)
  else if 0x41 ≤ c.toNat ∧ c.toNat ≤ 0x5A then some (c.toNat - 0x41 + 10)
  else
    match c.toNat with
    | 0x20 => some 36
    | 0x24 => some 37
    | 0x25 => some 38
    | 0x2A => some 39
    | 0x2B => some 40
    | 0x2D => some 41
    | 0x2E => some 42
    | 0x2F => some 43
    | 0x3A => some 44
    | _ => none

/-- `AlnVal` of a byte of a valid text (42_mode_encoders.md R134). `EncodeSeg` has checked the text before its payload
is built, so the `0` for a byte outside the alphabet is never used (log 19). -/
def alnCode (c : Byte) : Nat := (alnVal c).getD 0

/-- `Valid_m(T)` (42_mode_encoders.md R132, R134, R135). -/
def validText (m : Mode) (t : List Byte) : Bool :=
  match m with
  | .num => t.all isDigit
  | .aln => t.all (fun c => (alnVal c).isSome)
  | .byt => true

/-- The decimal value of a group, leading zeros included (42_mode_encoders.md R136). -/
def groupVal (g : List Byte) : Nat := g.foldl (fun v c => 10 * v + digitVal c) 0

/-- The digits left after removing leading zeros, or 1 if none is left (42_mode_encoders.md R136). -/
def groupDigits (g : List Byte) : Nat := max 1 (g.dropWhile (fun c => c == 0x30#8)).length

/-- The bits of a group: its value in `1 + 3 * d` bits (42_mode_encoders.md R136, R137). -/
def groupBits (g : List Byte) : Bits := bits (1 + 3 * groupDigits g) (groupVal g)

/-- `NumPayload`: groups of 3 from the front, the last of 1, 2 or 3 (42_mode_encoders.md R136). -/
def numPayload : List Byte → Bits
  | [] => []
  | [a] => groupBits [a]
  | [a, b] => groupBits [a, b]
  | a :: b :: c :: rest => groupBits [a, b, c] ++ numPayload rest

/-- `AlnPayload`: pairs in 11 bits, a last single character in 6 (42_mode_encoders.md R138). -/
def alnPayload : List Byte → Bits
  | [] => []
  | [c] => bits 6 (alnCode c)
  | a :: b :: rest => bits 11 (alnCode a * 45 + alnCode b) ++ alnPayload rest

/-- `Payload_m(T)` (42_mode_encoders.md R136, R138, R139). -/
def payload (m : Mode) (t : List Byte) : Bits :=
  match m with
  | .num => numPayload t
  | .aln => alnPayload t
  | .byt => byteBits t

/-- What `EncodeSeg` returns: `Ok(s)` or `Err(e)` (42_mode_encoders.md R141). -/
inductive SegResult where
  | ok (s : Bits)
  | err (e : ErrCode)
  deriving DecidableEq, Repr

/-- The bits of a segment before padding: mode indicator, count in `w` bits, payload (42_mode_encoders.md R141, R144). -/
def segmentData (m : Mode) (w : Nat) (t : List Byte) : Bits :=
  modeIndicator m ++ bits w t.length ++ payload m t

/-- `EncodeSeg(m, lvl, ver, T)`, its checks in the order charset, version, count width, capacity
(42_mode_encoders.md R141). -/
def encodeSeg (p : Params) (m : Mode) (lvl : Level) (ver : BitVec 6) (t : List Byte) : SegResult :=
  if !validText m t then .err .charset
  else
    match countWidth m ver with
    | none => .err .version
    | some w =>
      if t.length ≥ 2 ^ w then .err .range
      else if (segmentData m w t).length > 8 * p.codewords lvl ver.toNat then .err .range
      else .ok (padTo (segmentData m w t) (8 * p.codewords lvl ver.toNat))

/-- The commit of an encode command: the stream becomes the segment, or empty with the error code
(42_mode_encoders.md R142, 60_exceptions.md R184). -/
def commit (r : SegResult) (s : State) : Outcome :=
  match r with
  | .ok b => succeed (s.setStream b)
  | .err e => .next ((s.setStream []).complete e)

/-- An encode command: the descriptor check, the text read whole, then the commit of what `enc` makes of it
(42_mode_encoders.md R142, 60_exceptions.md R185, R189). -/
def encodeCommand (enc : List Byte → SegResult) (s : State) : Outcome :=
  if !s.srcFits then raise .illegal s
  else
    match s.text with
    | .unwritten i => .fault (.unwrittenIn i)
    | .bytes t => commit (enc t) s

end Sys2Proof.Machine
end

