-- ==== Sys2Proof/Machine/Encoders.lean ====
section
/-! DEFINITION. The three encode commands of one mode: `ENUM`, `EALN`, `EBYT` (42_mode_encoders.md section 5). -/

namespace Sys2Proof.Machine

/-- `ENUM lvl, ver` (42_mode_encoders.md R150). -/
def execEnum (lvl : Level) (ver : BitVec 6) (s : State) : Outcome :=
  encodeCommand (encodeSeg s.cfg .num lvl ver) s

/-- `EALN lvl, ver` (42_mode_encoders.md R151). -/
def execEaln (lvl : Level) (ver : BitVec 6) (s : State) : Outcome :=
  encodeCommand (encodeSeg s.cfg .aln lvl ver) s

/-- `EBYT lvl, ver` (42_mode_encoders.md R152). -/
def execEbyt (lvl : Level) (ver : BitVec 6) (s : State) : Outcome :=
  encodeCommand (encodeSeg s.cfg .byt lvl ver) s

end Sys2Proof.Machine
end

