-- ==== Sys2Proof/Machine/Selector.lean ====
section
/-! DEFINITION. The mode selector `EBEST` and the capacity query `CAPQ` (44_selector_tables.md). -/

namespace Sys2Proof.Machine

/-- The first mode of the list whose `EncodeSeg` succeeds, whatever the errors before it; `E_NOMODE` if none does
(44_selector_tables.md R170). -/
def firstThatFits (p : Params) (lvl : Level) (ver : BitVec 6) (t : List Byte) : List Mode → SegResult
  | [] => .err .noMode
  | m :: rest =>
    match encodeSeg p m lvl ver t with
    | .ok b => .ok b
    | .err _ => firstThatFits p lvl ver t rest

/-- The selector: numeric, then alphanumeric, then byte (44_selector_tables.md R170). -/
def encodeBest (p : Params) (lvl : Level) (ver : BitVec 6) (t : List Byte) : SegResult :=
  firstThatFits p lvl ver t [.num, .aln, .byt]

/-- `EBEST lvl, ver` (44_selector_tables.md R170). -/
def execEbest (lvl : Level) (ver : BitVec 6) (s : State) : Outcome :=
  encodeCommand (encodeBest s.cfg lvl ver) s

/-- `CAPQ tbl, lvl, ver`: `CAPVAL <- table[LVL][VER]` (44_selector_tables.md R172). -/
def execCapq (tbl : TblSel) (lvl : Level) (ver : BitVec 6) (s : State) : Outcome :=
  if !versionOk ver then raise .version s
  else succeed (s.setCapVal ((s.cfg.table tbl).entry lvl ver.toNat))

end Sys2Proof.Machine
end

