-- ==== Sys2Proof/Machine/Dispatch.lean ====
section
/-! DEFINITION. The dispatch of a decoded command to its meaning: one arm per constructor of `Instr`. -/

namespace Sys2Proof.Machine

def exec (i : Instr) (s : State) : Host.Outcome State Fault Refusal :=
  match i with
  | .clr => Sys2Proof.Machine.execClr s
  | .apb cnt val => Sys2Proof.Machine.execApb cnt val s
  | .apr nbits => Sys2Proof.Machine.execApr nbits s
  | .ecnt mode ver count => Sys2Proof.Machine.execEcnt mode ver count s
  | .pad tgt => Sys2Proof.Machine.execPad tgt s
  | .enum lvl ver => Sys2Proof.Machine.execEnum lvl ver s
  | .ealn lvl ver => Sys2Proof.Machine.execEaln lvl ver s
  | .ebyt lvl ver => Sys2Proof.Machine.execEbyt lvl ver s
  | .ebest lvl ver => Sys2Proof.Machine.execEbest lvl ver s
  | .capq tbl lvl ver => Sys2Proof.Machine.execCapq tbl lvl ver s

end Sys2Proof.Machine
end

