-- ==== Sys2Proof/Machine/Turns.lean ====
section
/-! DEFINITION. The core's step and the turn of each agent (70_reset_and_hazards.md R200, R203, R208). -/

namespace Sys2Proof.Machine

/-- The core executes the word `w`: decode it, then the command's rule, or `E_ILLEGAL` alone
(70_reset_and_hazards.md R203, 30_encoding.md R78). -/
def runWord (w : Word) (s : State) : Outcome :=
  match decode w with
  | .ok i => exec i s
  | .illegal _ => raise .illegal s

/-- The core's turn: when `PEND` holds a word it takes its one step (70_reset_and_hazards.md R203); when `PEND` is empty
no step of the core is enabled and nothing happens (log 2). -/
def coreTurn (s : State) : Outcome :=
  match s.pend with
  | some w => runWord w s
  | none => .next s

/-- One turn of the agent named. -/
def takeTurn (t : Turn) (s : State) : Outcome :=
  match t with
  | .host a => hostAccess a s
  | .core => coreTurn s
  | .reset => .next s.applyReset

/-- The next turn: the first of the list, which is taken off it; the core's if none is listed (log 1, log 2). -/
def nextTurn (s : State) : Outcome :=
  match s.turns with
  | [] => coreTurn s
  | t :: rest => takeTurn t (s.setTurns rest)

/-- The word `w` is the accepted command and the very next turn is the core's: what a `CMD` write of `w` and the host's
waiting bring about (10_state.md R24; log 15). -/
def State.loadCommand (s : State) (w : Word) : State := (s.setTurns []).accept w

end Sys2Proof.Machine
end

