-- ==== Sys2Proof/Machine/Step.lean ====
section
/-! DEFINITION. One step of the machine: the turn of the agent that moves next. -/

namespace Sys2Proof.Machine

/-- One atomic step of the system of host, core and reset input (20_memory.md R61). -/
def step (s : State) : Host.Outcome State Fault Refusal := nextTurn s

/-- `s` with the opcode-table word `w` as its accepted command and the core to move next (log 15). -/
def State.withFetchWord (s : State) (nbits w : Nat) : State := s.loadCommand (tableWord nbits w)

end Sys2Proof.Machine
end

