-- ==== Sys2Proof/Machine/Asm.lean ====
section
/-! DEFINITION. The assembler of 30_encoding.md section 6: pseudo-instructions, host directives and program lines, as the
commands and the turns they stand for. -/

namespace Sys2Proof.Machine

/-- `MODEI`'s word: the mode indicator, left-aligned in `VAL` (30_encoding.md R82). -/
def modeiVal : Mode → Half
  | .num => 0x1000#16
  | .aln => 0x2000#16
  | .byt => 0x4000#16

/-- A pseudo-instruction (30_encoding.md R82). -/
inductive Pseudo where
  | apbv (cnt v : Nat)
  | modei (m : Mode)
  | nop
  deriving DecidableEq, Repr

/-- The commands a pseudo-instruction expands to; none where the assembler refuses its operands (30_encoding.md R82). -/
def Pseudo.expand : Pseudo → Option (List Instr)
  | .apbv cnt v =>
    if cnt ≤ 16 ∧ v < 2 ^ cnt then some [.apb (BitVec.ofNat 5 cnt) (BitVec.ofNat 16 (v <<< (16 - cnt)))] else none
  | .modei m => some [.apb 4#5 (modeiVal m)]
  | .nop => some []

/-- A line of a program (30_encoding.md R81-R83). -/
inductive Line where
  | cmd (i : Instr)
  | pseudo (p : Pseudo)
  /-- `TEXT off, "chars"`. -/
  | text (off : Nat) (chars : List Byte)
  /-- `SRC off, len`. -/
  | src (off len : Half)
  /-- `WAIT`. -/
  | wait
  /-- `RD reg`. -/
  | rd (r : Reg)
  /-- `RDOUT`. -/
  | rdout
  deriving DecidableEq, Repr

/-- A 32-bit write of a register. -/
def regWrite (r : Reg) (w : Word) : Turn := .host (.write r.offset (.b32 w))

/-- A 32-bit read of a register. -/
def regRead (r : Reg) : Turn := .host (.read r.offset .w32)

/-- `WAIT`: the core's step and the poll that sees `BUSY = 0` (30_encoding.md R83). Any number of polls may come before
the core's step (70_reset_and_hazards.md R203); this is the shortest wait (log 20). -/
def waitTurns : List Turn := [.core, regRead .status]

/-- A command line: a `CMD` write of its word, then `WAIT` (30_encoding.md R83). -/
def commandTurns (i : Instr) : List Turn := regWrite .cmd (encode i) :: waitTurns

/-- 8-bit writes of `chars` to IN bytes `off`, `off+1`, ... (30_encoding.md R83). -/
def textTurns : Nat → List Byte → List Turn
  | _, [] => []
  | off, c :: rest => .host (.write (BitVec.ofNat 14 (0x1000 + off)) (.b8 c)) :: textTurns (off + 1) rest

/-- 8-bit reads of OUT bytes `k`, `k+1`, ..., `n` of them (30_encoding.md R83). -/
def outReads : Nat → Nat → List Turn
  | _, 0 => []
  | k, n + 1 => .host (.read (BitVec.ofNat 14 (0x2000 + k)) .w8) :: outReads (k + 1) n

/-- The turns a program line stands for in state `s` (only `RDOUT` looks at it, for `OUTLEN`); none where the assembler
refuses the line: a pseudo-instruction's operands (30_encoding.md R82), or a text past the largest IN window (log 20). -/
def Line.turns (s : State) : Line → Option (List Turn)
  | .cmd i => some (commandTurns i)
  | .pseudo p => p.expand.map (fun l => l.flatMap commandTurns)
  | .text off chars => if off + chars.length ≤ 4096 then some (textTurns off chars) else none
  | .src off len => some [regWrite .srcOff (place 0 off), regWrite .srcLen (place 0 len)]
  | .wait => some waitTurns
  | .rd r => some [regRead r]
  | .rdout => some (regRead .outlen :: outReads 0 s.outLen)

end Sys2Proof.Machine
end

