-- ==== Sys2Proof/Safety.lean ====
section
/-! DEFINITION. The terms the statements use: good states, a ready text, kinds of commands, sequences of commands, and the
slices of 00_scope.md R8. -/

namespace Sys2Proof.Machine

/-- Every listed index lies inside the IN window (10_state.md R36). -/
abbrev Memory.within (m : Memory) (n : Nat) : Prop := ∀ c ∈ m, c.1 < n

/-- The invariant of the machine: the parameters meet the constraints of 00_scope.md R7, the stream fits the buffer
(10_state.md R20), the IN window is in canonical form and inside its size (R36), and `ERR` is 0 while a command is
pending (10_state.md R25). -/
structure State.Inv (s : State) : Prop where
  params : s.cfg.valid = true
  fits : s.bitLen ≤ 8 * s.cfg.bufBytes
  canonical : s.inMem.wf
  inside : s.inMem.within s.cfg.inBytes
  cleared : s.busy = true → s.err = .ok

/-- The descriptor is legal and its bytes are `t`, all written: what an encode command needs of the host
(70_reset_and_hazards.md R201, 60_exceptions.md R185, R189). -/
structure State.TextReady (s : State) (t : List Byte) : Prop where
  legal : s.srcOff.toNat + s.srcLen.toNat ≤ s.cfg.inBytes
  length : t.length = s.srcLen.toNat
  written : ∀ k, k < s.srcLen.toNat → s.inMem.read (s.srcOff.toNat + k) = t[k]?

/-- `k` is the first index of the `n` bytes from `SRC_OFF` that the host has not written (60_exceptions.md R189,
20_memory.md R66). -/
def State.FirstUnwritten (s : State) (n k : Nat) : Prop :=
  ∃ j, j < n ∧ k = s.srcOff.toNat + j ∧ s.inMem.read k = none ∧
    ∀ h, h < j → s.inMem.read (s.srcOff.toNat + h) ≠ none

/-- A read turn of a legal shape: always allowed (60_exceptions.md R190). -/
def Turn.legalRead : Turn → Bool
  | .host (.read off width) => legalShape off width
  | .host (.write _ _) => false
  | .core => false
  | .reset => false

/-- The width of the data a host write carries. -/
def RData.width : RData → Width
  | .b8 _ => .w8
  | .b16 _ => .w16
  | .b32 _ => .w32

/-- The encode command of one mode: `ENUM`, `EALN` or `EBYT`. -/
def encodeCmd (m : Mode) (lvl : Level) (ver : BitVec 6) : Instr :=
  match m with
  | .num => .enum lvl ver
  | .aln => .ealn lvl ver
  | .byt => .ebyt lvl ver

/-- `ENUM`, `EALN`, `EBYT` and `EBEST`, with the level and version of the word: the encode commands of
42_mode_encoders.md R142. -/
def encodeArgs : Instr → Option (Level × BitVec 6)
  | .enum lvl ver => some (lvl, ver)
  | .ealn lvl ver => some (lvl, ver)
  | .ebyt lvl ver => some (lvl, ver)
  | .ebest lvl ver => some (lvl, ver)
  | .clr => none
  | .apb _ _ => none
  | .apr _ => none
  | .ecnt _ _ _ => none
  | .pad _ => none
  | .capq _ _ _ => none

/-- The encode commands. -/
def isEncode (i : Instr) : Bool := (encodeArgs i).isSome

/-- The commands that append at the end of the stream: `APB`, `APR`, `ECNT`, `PAD` (10_state.md R21 a). -/
def isAppend : Instr → Bool
  | .apb _ _ => true
  | .apr _ => true
  | .ecnt _ _ _ => true
  | .pad _ => true
  | .clr => false
  | .enum _ _ => false
  | .ealn _ _ => false
  | .ebyt _ _ => false
  | .ebest _ _ => false
  | .capq _ _ _ => false

/-- `CAPQ`. -/
def isCapq : Instr → Bool
  | .capq _ _ _ => true
  | .clr => false
  | .apb _ _ => false
  | .apr _ => false
  | .ecnt _ _ _ => false
  | .pad _ => false
  | .enum _ _ => false
  | .ealn _ _ => false
  | .ebyt _ _ => false
  | .ebest _ _ => false

/-- Commands run one after another, stopping at the first that does not answer a next state. -/
def execAll : List Instr → State → Outcome
  | [], s => .next s
  | i :: rest, s =>
    match exec i s with
    | .next t => execAll rest t
    | .fault f => .fault f
    | .refused r => .refused r

/-- `v[hi:lo]`, the field of bits `hi` down to `lo` read as an unsigned number (00_scope.md R8). -/
def slice {n : Nat} (v : BitVec n) (hi lo : Nat) : Nat := v.toNat / 2 ^ lo % 2 ^ (hi + 1 - lo)

end Sys2Proof.Machine
end

