-- ==== Sys2Proof/Certificates/Slice0/Obligations.lean ====
section
/-! DEFINITION. The statements for the provers: `def Obligations.<Name> : Prop`, each with the rule of the spec it
formalises. No statement is proved here. -/

open Sys2Proof Sys2Proof.Machine

/-! ### Encoding -/

/-- Decoding the word of a well-formed command gives the command back, whatever its operands
(30_encoding.md R71, R77, R79, R81). -/
def Obligations.EncodeThenDecodeGivesTheCommand : Prop :=
  ∀ i : Instr, i.wf = true → decode (encode i) = .ok i

/-- The other direction: each legal word is the word of the one well-formed command it decodes to, so no bit of a legal
word is dropped (30_encoding.md R70, R77, R81). -/
def Obligations.DecodedWordIsTheCommandsWord : Prop :=
  ∀ (w : Word) (i : Instr), decode w = .ok i → i.wf = true ∧ encode i = w

/-- The illegal words of 30_encoding.md R78, from the bit positions of R71. -/
def Sys2Proof.Machine.IllegalWord (w : Word) : Prop :=
  slice w 31 28 = 0 ∨ 0xB ≤ slice w 31 28 ∨
  (slice w 31 28 = 1 ∧ slice w 27 0 ≠ 0) ∨
  (slice w 31 28 = 2 ∧ (slice w 27 21 ≠ 0 ∨ 16 < slice w 20 16)) ∨
  (slice w 31 28 = 3 ∧ slice w 27 16 ≠ 0) ∨
  (slice w 31 28 = 4 ∧ (slice w 25 22 ≠ 0 ∨ slice w 27 26 = 3)) ∨
  (slice w 31 28 = 5 ∧ slice w 27 16 ≠ 0) ∨
  (6 ≤ slice w 31 28 ∧ slice w 31 28 ≤ 9 ∧ (slice w 27 26 ≠ 0 ∨ slice w 23 22 ≠ 0 ∨ slice w 15 0 ≠ 0)) ∨
  (slice w 31 28 = 0xA ∧ (slice w 27 26 ≠ 0 ∨ slice w 23 22 ≠ 0 ∨ slice w 15 3 ≠ 0 ∨ 4 < slice w 2 0))

/-- R78: a word is refused by the decoder exactly when it is illegal, and an illegal command completes, in the core's one
step, with `E_ILLEGAL` (5) and changes nothing else. -/
def Obligations.IllegalWordsAreExactlyThoseOfTheSpec : Prop :=
  (∀ w : Word, (∃ why, decode w = .illegal why) ↔ IllegalWord w) ∧
  (∀ (s : State) (w : Word), s.pend = some w → IllegalWord w →
    takeTurn .core s = .next { s with err := .illegal, pend := none }) ∧
  ErrCode.illegal.code.toNat = 5

/-- Words of 30_encoding.md R81 and 95_test_vectors.md, one per format, and what they stand for. -/
def Obligations.SampleWordsDecodeAsTheSpecSays : Prop :=
  decode 0x10000000#32 = .ok .clr ∧
  decode 0x20041000#32 = .ok (.apb 4#5 0x1000#16) ∧
  decode 0x3000000C#32 = .ok (.apr 12#16) ∧
  decode 0x4401000B#32 = .ok (.ecnt .aln 1#6 11#16) ∧
  decode 0x50000013#32 = .ok (.pad 19#16) ∧
  decode 0x63280000#32 = .ok (.enum .H 40#6) ∧
  decode 0x710A0000#32 = .ok (.ealn .M 10#6) ∧
  decode 0x80290000#32 = .ok (.ebyt .L 41#6) ∧
  decode 0x92010000#32 = .ok (.ebest .Q 1#6) ∧
  decode 0xA21B0003#32 = .ok (.capq .byt .Q 27#6)

/-! ### Steps, turns, completion -/

/-- When it is the core's turn and `PEND` holds the word of a command, the step is that command's `exec`; nothing is done
around it but taking the turn off the list (70_reset_and_hazards.md R203; the list of turns, and
that the core moves when it is empty, are the model's choice, log 1, log 2). -/
def Obligations.StepRunsThePendingCommand : Prop :=
  ∀ (s : State) (w : Word) (i : Instr), s.pend = some w → decode w = .ok i →
    (s.turns = [] → step s = exec i s) ∧
    (∀ rest, s.turns = .core :: rest → step s = exec i { s with turns := rest })

/-- A step is the turn of the agent that moves next, taken off the list; the core's when none is listed; a core turn with
nothing pending changes nothing. That the order of the agents is a list, and what an empty one means, is the model's
choice (log 1, log 2). -/
def Obligations.StepTakesTheNextTurn : Prop :=
  (∀ (s : State) (t : Turn) (rest : List Turn), s.turns = t :: rest → step s = takeTurn t { s with turns := rest }) ∧
  (∀ (s : State) (a : Access) (rest : List Turn), s.turns = .host a :: rest →
    step s = hostAccess a { s with turns := rest }) ∧
  (∀ s : State, s.turns = [] → step s = takeTurn .core s) ∧
  (∀ s : State, s.pend = none → takeTurn .core s = .next s)

/-- A host read of `off` in state `s` returns `d` and changes nothing of the core. -/
def Sys2Proof.Machine.State.Reads (s : State) (off : BitVec 14) (width : Width) (d : RData) : Prop :=
  hostAccess (.read off width) s = .next { s with lastRead := some d }

/-- While a command is pending and the turns listed are legal host reads, the `k`-th read returns what it would have returned at
acceptance and changes nothing of the core; `STATUS` reads busy with `ERR` 0; and the first step after the reads runs the
command on that state (70_reset_and_hazards.md R203, R204). `turns` and `lastRead` are the model's own (log 1, log 3), and that
the core moves when no turn is listed is its choice (log 2). -/
def Obligations.PollingSeesTheStateBeforeTheCommand : Prop :=
  ∀ (s : State) (w : Word) (i : Instr), s.pend = some w → decode w = .ok i →
    (∀ t ∈ s.turns, t.legalRead = true) →
    (∀ (k : Nat) (off : BitVec 14) (width : Width), s.turns[k]? = some (.host (.read off width)) →
      s.Reads off width (s.readData off.toNat width) ∧
      Host.Core.run Sys2Proof.core (k + 1) s =
        .next { s with turns := s.turns.drop (k + 1), lastRead := some (s.readData off.toNat width) }) ∧
    (s.Inv → ∃ v, s.Reads 0x004#14 .w32 (.b32 v) ∧ slice v 31 31 = 1 ∧ slice v 3 0 = 0) ∧
    (∃ d, Host.Core.run Sys2Proof.core s.turns.length s = .next { s with turns := [], lastRead := d } ∧
      Host.Core.run Sys2Proof.core (s.turns.length + 1) s = exec i { s with turns := [], lastRead := d })

/-- No step is refused: every command, access and turn has a meaning. -/
def Obligations.NoStepIsRefused : Prop :=
  ∀ (s : State) (r : Refusal), step s ≠ .refused r

/-- R189: `APR` and the encode commands fault exactly when their checks have passed and a byte they read is unwritten,
with the first such byte; no other command faults; a host read of the IN window never faults and returns the byte
written, if one was. -/
def Obligations.UnwrittenInputBytesFault : Prop :=
  (∀ (i : Instr) (s : State) (k : Nat), isEncode i = true →
    (exec i s = .fault (.unwrittenIn k) ↔
      s.srcOff.toNat + s.srcLen.toNat ≤ s.cfg.inBytes ∧ s.FirstUnwritten s.srcLen.toNat k)) ∧
  (∀ (n : Half) (s : State) (k : Nat),
    exec (.apr n) s = .fault (.unwrittenIn k) ↔
      s.srcOff.toNat + s.srcLen.toNat ≤ s.cfg.inBytes ∧ n.toNat ≤ 8 * s.srcLen.toNat ∧
      s.bitLen + n.toNat ≤ 8 * s.cfg.bufBytes ∧ s.FirstUnwritten ((n.toNat + 7) / 8) k) ∧
  (∀ (i : Instr) (s : State) (f : Fault), exec i s = .fault f →
    (isEncode i = true ∨ ∃ n, i = .apr n) ∧ ∃ k, f = .unwrittenIn k) ∧
  (∀ (s : State) (off : BitVec 14), 0x1000 ≤ off.toNat → off.toNat < 0x1000 + s.cfg.inBytes →
    ∃ b, hostAccess (.read off .w8) s = .next { s with lastRead := some (.b8 b) } ∧
      ∀ v, s.inMem.read (off.toNat - 0x1000) = some v → b = v)

/-! ### Invariants, reset, parameters -/

/-- Every step keeps the invariant: legal parameters, a stream that fits the buffer, an IN window in canonical form and
inside its size, `ERR` 0 while busy (00_scope.md R7; 10_state.md R20, R25, R36). -/
def Obligations.EveryStepKeepsTheInvariant : Prop :=
  ∀ s t : State, s.Inv → step s = .next t → t.Inv

/-- The state after reset meets the invariant. Its parameters are the model's choice (log 4, log 5). -/
def Obligations.ResetStateMeetsTheInvariant : Prop := State.reset.Inv

/-- The values of 10_state.md R38, as the host can read them. -/
structure Sys2Proof.Machine.State.ResetValues (s : State) : Prop where
  stream : s.stream = []
  pend : s.pend = none
  busy : s.busy = false
  err : s.err = .ok
  status : s.readReg .status = 0
  bitlen : s.readReg .bitlen = 0
  outlen : s.readReg .outlen = 0
  srcOff : s.readReg .srcOff = 0
  srcLen : s.readReg .srcLen = 0
  capval : s.readReg .capval = 0
  buf : ∀ k, s.bufByte k = 0
  unwritten : ∀ a, s.inMem.read a = none

/-- R38 (and 70_reset_and_hazards.md R200): after reset, at power-on and whenever the reset input is asserted, in every
state and even while a command is pending, every piece of state holds its reset value, and the parameters, the tables
and `INFO` are unchanged. -/
def Obligations.ResetGivesTheValuesOfTheSpec : Prop :=
  State.reset.ResetValues ∧
  ∀ s : State, ∃ t, takeTurn .reset s = .next t ∧ t.ResetValues ∧ t.cfg = s.cfg ∧ t.readReg .info = s.readReg .info

/-- R30: a host read of `INFO` at 0x01C returns the two sizes, no step, reset among them, changes what it returns, and a write
to it is ignored. With it, of 10_state.md R37: no step changes a row of any of the five tables, or any other parameter. -/
def Obligations.InfoAndTablesNeverChange : Prop :=
  (∀ s : State, s.cfg.valid = true →
    ∃ v, s.Reads 0x01C#14 .w32 (.b32 v) ∧ slice v 15 0 = s.cfg.bufBytes ∧ slice v 31 16 = s.cfg.inBytes) ∧
  (∀ (s t : State) (v : Word), step s = .next t → s.Reads 0x01C#14 .w32 (.b32 v) → t.Reads 0x01C#14 .w32 (.b32 v)) ∧
  (∀ s t : State, step s = .next t → t.cfg = s.cfg ∧
    ∀ (tbl : TblSel) (lvl : Level), (t.cfg.table tbl).row lvl = (s.cfg.table tbl).row lvl) ∧
  (∀ (s : State) (w : Word), hostAccess (.write 0x01C#14 (.b32 w)) s = .next s)

/-! ### What commands leave unchanged -/

/-- The frame of all ten commands: whatever a command did, `SRC_OFF`, `SRC_LEN`, every byte of the IN window, the
parameters and the model's own fields are unchanged and the core is idle; only `CAPQ` writes `CAPVAL`; `CAPQ` leaves the
stream alone (10_state.md R28, R29, R36; 70_reset_and_hazards.md R203). -/
def Obligations.CommandsLeaveTheRestUnchanged : Prop :=
  ∀ (i : Instr) (s t : State), exec i s = .next t →
    t.pend = none ∧ t.srcOff = s.srcOff ∧ t.srcLen = s.srcLen ∧ t.cfg = s.cfg ∧
    t.turns = s.turns ∧ t.lastRead = s.lastRead ∧ t.epoch = s.epoch ∧
    (∀ a, t.inMem.read a = s.inMem.read a) ∧ t.inMem = s.inMem ∧
    (isCapq i = false → t.capVal = s.capVal) ∧
    (isCapq i = true → t.stream = s.stream ∧ ∀ k, t.bufByte k = s.bufByte k)

/-- R21: the ways the stream changes. An appending command keeps it as the front of the new one; `CLR` and a failed encode
command leave it empty; a successful encode command replaces it by its segment; a command that raises `E_ILLEGAL` and
`CAPQ` leave it alone; no host access changes it. -/
def Obligations.StreamChangesOnlyAsTheSpecSays : Prop :=
  (∀ (i : Instr) (s t : State), exec i s = .next t →
    (isAppend i = true → s.stream <+: t.stream) ∧
    (i = .clr → t.stream = []) ∧
    (isCapq i = true → t.stream = s.stream) ∧
    (t.err = .illegal → t.stream = s.stream) ∧
    (isEncode i = true → t.err ≠ .ok → t.err ≠ .illegal → t.stream = []) ∧
    (∀ lvl ver, encodeArgs i = some (lvl, ver) → t.err = .ok →
      ∃ (l : List Byte) (m : Mode), s.TextReady l ∧ encodeSeg s.cfg m lvl ver l = .ok t.stream)) ∧
  (∀ (a : Access) (s t : State), hostAccess a s = .next t → t.stream = s.stream)

/-- R183: a low-level command that raises an error, and any command that raises `E_ILLEGAL`, changes nothing but
`STATUS`. -/
def Obligations.LowLevelErrorsChangeNothingElse : Prop :=
  (∀ (i : Instr) (s t : State), exec i s = .next t → t.err ≠ .ok → (isEncode i = false ∨ t.err = .illegal) →
    t = { s with err := t.err, pend := none }) ∧
  (∀ (s : State) (w : Word), s.pend = some w → (∃ why, decode w = .illegal why) →
    takeTurn .core s = .next { s with err := .illegal, pend := none })

/-- R184: an encode command that fails after its descriptor check leaves the stream empty, so that `OUTLEN` is 0, and
everything else unchanged; whether it fails or succeeds, the stream it found is lost: what it leaves does not depend on
it. -/
def Obligations.FailedEncodeLeavesNoOutput : Prop :=
  (∀ (i : Instr) (s t : State), isEncode i = true → exec i s = .next t → t.err ≠ .ok → t.err ≠ .illegal →
    t = { s with stream := [], err := t.err, pend := none } ∧ t.readReg .outlen = 0 ∧
    (t.err = .charset ∨ t.err = .version ∨ t.err = .range ∨ t.err = .noMode)) ∧
  (∀ (i : Instr) (s : State) (b : Bits), isEncode i = true → s.srcOff.toNat + s.srcLen.toNat ≤ s.cfg.inBytes →
    exec i { s with stream := b } = exec i s)

/-- 60_exceptions.md R181: the errors each command can raise. -/
def Obligations.EachCommandRaisesOnlyItsErrors : Prop :=
  ∀ (i : Instr) (s t : State), exec i s = .next t →
    match i with
    | .clr => t.err = .ok
    | .apb cnt _ => t.err = .ok ∨ t.err = .range ∨ (t.err = .illegal ∧ 16 < cnt.toNat)
    | .apr _ => t.err = .ok ∨ t.err = .range ∨ t.err = .illegal
    | .ecnt _ ver _ => t.err = .ok ∨ t.err = .range ∨ (t.err = .version ∧ (ver.toNat < 1 ∨ 40 < ver.toNat))
    | .pad _ => t.err = .ok ∨ t.err = .range
    | .enum _ _ => t.err ≠ .noMode
    | .ealn _ _ => t.err ≠ .noMode
    | .ebyt _ _ => t.err ≠ .noMode ∧ t.err ≠ .charset
    | .ebest _ _ => t.err = .ok ∨ t.err = .noMode ∨ t.err = .illegal
    | .capq _ _ ver => t.err = .ok ∨ (t.err = .version ∧ (ver.toNat < 1 ∨ 40 < ver.toNat))

/-- R32: nothing inside the core reads `STATUS.ERR`, and every command overwrites it: what a command does and the code it
leaves do not depend on the code it found; nor on `CAPVAL` (30_encoding.md R73), which only `CAPQ` replaces. -/
def Obligations.CommandsDoNotReadEarlierResults : Prop :=
  (∀ (i : Instr) (s : State) (e : ErrCode), exec i { s with err := e } = exec i s) ∧
  (∀ (i : Instr) (s t : State) (v : Half), isCapq i = false → exec i s = .next t →
    exec i { s with capVal := v } = .next { t with capVal := v })

/-- The IN bytes outside the source region do not matter, and of that region `APR` reads only the bytes that contribute
bits: with another IN window that agrees on the bytes a command reads, it does the same (20_memory.md R66,
40_bitstream.md R104). -/
def Obligations.OnlyTheBytesReadMatter : Prop :=
  ∀ (i : Instr) (s : State) (m : Memory),
    (∀ k, k < s.srcLen.toNat → (∀ n : Half, i = .apr n → k < (n.toNat + 7) / 8) →
      m.read (s.srcOff.toNat + k) = s.inMem.read (s.srcOff.toNat + k)) →
    match exec i s with
    | .next t => exec i { s with inMem := m } = .next { t with inMem := m }
    | .fault f => exec i { s with inMem := m } = .fault f
    | .refused r => exec i { s with inMem := m } = .refused r

/-! ### The stream and its byte view -/

/-- R22: `BUF` is the byte view of `S`. -/
def Obligations.BufferIsTheByteViewOfTheStream : Prop :=
  ∀ (s : State) (k j : Nat), j ≤ 7 →
    (s.bufByte k).getLsbD (7 - j) = if h : 8 * k + j < s.bitLen then s.stream[8 * k + j]'h else false

/-- R102: an appending command changes only the bits past the old end: every earlier bit of `BUF` keeps its value, and the
bits past the new end are 0. -/
def Obligations.AppendsKeepTheEarlierBits : Prop :=
  ∀ (i : Instr) (s t : State), isAppend i = true → exec i s = .next t →
    s.bitLen ≤ t.bitLen ∧
    (∀ p, p < s.bitLen → (t.bufByte (p / 8)).getLsbD (7 - p % 8) = (s.bufByte (p / 8)).getLsbD (7 - p % 8)) ∧
    (∀ p, t.bitLen ≤ p → (t.bufByte (p / 8)).getLsbD (7 - p % 8) = false)

/-- R103: the bits `APB` appended read back from `BUF` spell the value, `OUTLEN` follows, and the unfilled trailing bits are
0. -/
def Obligations.AppendedValueReadsBack : Prop :=
  ∀ (s t : State) (cnt v : Nat), s.Inv → cnt ≤ 16 → v < 2 ^ cnt →
    exec (.apb (BitVec.ofNat 5 cnt) (BitVec.ofNat 16 (v <<< (16 - cnt)))) s = .next t → t.err = .ok →
    t.bitLen = s.bitLen + cnt ∧
    (∀ k, k < cnt → (t.bufByte ((s.bitLen + k) / 8)).getLsbD (7 - (s.bitLen + k) % 8) = v.testBit (cnt - 1 - k)) ∧
    (t.readReg .outlen).toNat = (s.bitLen + cnt + 7) / 8 ∧
    (∀ p, s.bitLen + cnt ≤ p → (t.bufByte (p / 8)).getLsbD (7 - p % 8) = false)

/-! ### CLR, APB, APR -/

/-- R100: `CLR` empties the stream and changes nothing else but `STATUS`, in every state. -/
def Obligations.ClrEmptiesTheStream : Prop :=
  ∀ s : State, exec .clr s = .next { s with stream := [], err := .ok, pend := none }

/-- R101: with `CNT ≤ 16` and room, `APB` appends `VAL[15]`, `VAL[14]`, ..., `VAL[16 - CNT]` (`CNT = 0` appends nothing); its
errors are `E_ILLEGAL` for `CNT > 16`, then `E_RANGE` without room, and then nothing else changes. -/
def Obligations.ApbAppendsTheTopBits : Prop :=
  ∀ (cnt : BitVec 5) (val : Half) (s : State),
    (cnt.toNat ≤ 16 → s.bitLen + cnt.toNat ≤ 8 * s.cfg.bufBytes →
      exec (.apb cnt val) s =
        .next { s with
          stream := s.stream ++ (List.range cnt.toNat).map (fun k => val.getLsbD (15 - k)), err := .ok, pend := none }) ∧
    (16 < cnt.toNat → exec (.apb cnt val) s = .next { s with err := .illegal, pend := none }) ∧
    (cnt.toNat ≤ 16 → 8 * s.cfg.bufBytes < s.bitLen + cnt.toNat →
      exec (.apb cnt val) s = .next { s with err := .range, pend := none })

/-- R104: with a legal descriptor, enough source bits, room, and the contributing bytes `d` written, `APR` appends the first
`BITS` bits of `d`, each byte from its bit 7 down. -/
def Obligations.AprAppendsTheSourceBits : Prop :=
  ∀ (n : Half) (s : State) (d : List Byte),
    s.srcOff.toNat + s.srcLen.toNat ≤ s.cfg.inBytes → n.toNat ≤ 8 * s.srcLen.toNat →
    s.bitLen + n.toNat ≤ 8 * s.cfg.bufBytes → d.length = (n.toNat + 7) / 8 →
    (∀ k, k < d.length → s.inMem.read (s.srcOff.toNat + k) = d[k]?) →
    exec (.apr n) s =
      .next { s with
        stream := s.stream ++ (List.range n.toNat).map (fun k => (d.getD (k / 8) 0).getLsbD (7 - k % 8))
        err := .ok, pend := none }

/-- R104, R105: `APR`'s errors, the first that applies: `E_ILLEGAL` from the descriptor, `E_RANGE` for too few source bits,
`E_RANGE` without room; no bit is appended and no byte read. -/
def Obligations.AprErrors : Prop :=
  ∀ (n : Half) (s : State),
    (s.cfg.inBytes < s.srcOff.toNat + s.srcLen.toNat → exec (.apr n) s = .next { s with err := .illegal, pend := none }) ∧
    (s.srcOff.toNat + s.srcLen.toNat ≤ s.cfg.inBytes →
      (8 * s.srcLen.toNat < n.toNat ∨ 8 * s.cfg.bufBytes < s.bitLen + n.toNat) →
      exec (.apr n) s = .next { s with err := .range, pend := none })

/-! ### ECNT -/

/-- R120, R122: the count widths, and none outside 1..40. -/
def Obligations.CountWidthTable : Prop :=
  (∀ ver : BitVec 6, 1 ≤ ver.toNat → ver.toNat ≤ 9 →
    countWidth .num ver = some 10 ∧ countWidth .aln ver = some 9 ∧ countWidth .byt ver = some 8) ∧
  (∀ ver : BitVec 6, 10 ≤ ver.toNat → ver.toNat ≤ 26 →
    countWidth .num ver = some 12 ∧ countWidth .aln ver = some 11 ∧ countWidth .byt ver = some 16) ∧
  (∀ ver : BitVec 6, 27 ≤ ver.toNat → ver.toNat ≤ 40 →
    countWidth .num ver = some 14 ∧ countWidth .aln ver = some 13 ∧ countWidth .byt ver = some 16) ∧
  (∀ (m : Mode) (ver : BitVec 6), (ver.toNat = 0 ∨ 41 ≤ ver.toNat) → countWidth m ver = none)

/-- R121, R123: a count that fits its field is appended in that many bits, most significant first, when there is room; the
errors are `E_VERSION`, then `E_RANGE` for a count too wide (no truncation) or without room, and then nothing else
changes. -/
def Obligations.EcntAppendsTheCount : Prop :=
  ∀ (m : Mode) (ver : BitVec 6) (count : Half) (s : State),
    (∀ w, countWidth m ver = some w → count.toNat < 2 ^ w → s.bitLen + w ≤ 8 * s.cfg.bufBytes →
      exec (.ecnt m ver count) s =
        .next { s with
          stream := s.stream ++ (List.range w).map (fun k => count.getLsbD (w - 1 - k)), err := .ok, pend := none }) ∧
    ((ver.toNat = 0 ∨ 41 ≤ ver.toNat) → exec (.ecnt m ver count) s = .next { s with err := .version, pend := none }) ∧
    (∀ w, countWidth m ver = some w → (2 ^ w ≤ count.toNat ∨ 8 * s.cfg.bufBytes < s.bitLen + w) →
      exec (.ecnt m ver count) s = .next { s with err := .range, pend := none })

/-! ### PAD -/

/-- R161: what `PadTo` appends: zeros up to the terminator's end, zeros up to the next multiple of 8, then `EC 11 EC 11 ...`
as whole bytes up to the target. -/
def Obligations.PaddingHasTheStatedShape : Prop :=
  ∀ (s : Bits) (target : Nat), s.length ≤ target → target % 8 = 0 →
    (padTo s target).length = target ∧ s <+: padTo s target ∧
    ∃ e, e % 8 = 0 ∧ s.length + min 4 (target - s.length) ≤ e ∧ e < s.length + min 4 (target - s.length) + 8 ∧ e ≤ target ∧
      (∀ p, s.length ≤ p → p < e → (padTo s target)[p]? = some false) ∧
      (∀ p, e ≤ p → p < target → (padTo s target)[p]? =
        some ((if (p - e) / 8 % 2 = 0 then 0xEC#8 else 0x11#8).getLsbD (7 - p % 8)))

/-- R162, R164: `PAD` succeeds exactly when the target fits the buffer and the stream fits the target, and then the stream is
`PadTo` of itself; otherwise `E_RANGE` and nothing else changes. -/
def Obligations.PadFillsToTheTarget : Prop :=
  ∀ (tgt : Half) (s : State),
    (tgt.toNat ≤ s.cfg.bufBytes → s.bitLen ≤ 8 * tgt.toNat →
      exec (.pad tgt) s = .next { s with stream := padTo s.stream (8 * tgt.toNat), err := .ok, pend := none }) ∧
    ((s.cfg.bufBytes < tgt.toNat ∨ 8 * tgt.toNat < s.bitLen) →
      exec (.pad tgt) s = .next { s with err := .range, pend := none })

/-- R162, R164: after a successful `PAD` the length is exactly the target, and a second `PAD` with the same target appends
nothing. -/
def Obligations.PadTwiceAppendsNothing : Prop :=
  ∀ (tgt : Half) (s t : State), exec (.pad tgt) s = .next t → t.err = .ok →
    t.bitLen = 8 * tgt.toNat ∧ t.outLen = tgt.toNat ∧ exec (.pad tgt) t = .next t

/-! ### Character sets and payloads -/

/-- The 45 alphanumeric characters in the order of their values (42_mode_encoders.md R133). -/
def Sys2Proof.Machine.alnAlphabet : List Byte :=
  [0x30, 0x31, 0x32, 0x33, 0x34, 0x35, 0x36, 0x37, 0x38, 0x39,
   0x41, 0x42, 0x43, 0x44, 0x45, 0x46, 0x47, 0x48, 0x49, 0x4A, 0x4B, 0x4C, 0x4D,
   0x4E, 0x4F, 0x50, 0x51, 0x52, 0x53, 0x54, 0x55, 0x56, 0x57, 0x58, 0x59, 0x5A,
   0x20, 0x24, 0x25, 0x2A, 0x2B, 0x2D, 0x2E, 0x2F, 0x3A]

/-- R133: `AlnVal` is defined for exactly the 45 bytes, and the value of a byte is its place in the list. -/
def Obligations.AlphanumericValues : Prop :=
  alnAlphabet.length = 45 ∧ alnAlphabet.Nodup ∧
  ∀ (c : Byte) (v : Nat), alnVal c = some v ↔ alnAlphabet[v]? = some c

/-- R132, R134, R135: which texts are valid in each mode. -/
def Obligations.ValidTexts : Prop :=
  ∀ t : List Byte,
    (validText .num t = true ↔ ∀ c ∈ t, 0x30 ≤ c.toNat ∧ c.toNat ≤ 0x39) ∧
    (validText .aln t = true ↔ ∀ c ∈ t, c ∈ alnAlphabet) ∧
    validText .byt t = true

/-- The value of group `g`, by the sum of 42_mode_encoders.md R136. -/
def Sys2Proof.Machine.groupSum (g : List Byte) : Nat :=
  ((List.range g.length).map (fun i => ((g.getD i 0).toNat - 0x30) * 10 ^ (g.length - 1 - i))).sum

/-- `max(1, |g| - leading zeros)` of 42_mode_encoders.md R136. -/
def Sys2Proof.Machine.groupSignificant (g : List Byte) : Nat :=
  max 1 (g.length - (g.takeWhile (fun c => c == 0x30)).length)

/-- R136: the numeric payload, group by group from the front, as the spec's loop writes it. -/
def Obligations.NumericPayloadIsTheGroupsInOrder : Prop :=
  ∀ t : List Byte, validText .num t = true →
    payload .num t = (List.range ((t.length + 2) / 3)).flatMap (fun k =>
      bits (1 + 3 * groupSignificant ((t.drop (3 * k)).take 3)) (groupSum ((t.drop (3 * k)).take 3)))

/-- The width of a group of 1 to 3 digits by its value, which always fits: the restatement of 42_mode_encoders.md R137, which
the spec marks as its own inference from R136 ("This width depends on the group's value, not on its length"). -/
def Obligations.NumericGroupWidthByValue : Prop :=
  (∀ g : List Byte, validText .num g = true → 1 ≤ g.length → g.length ≤ 3 →
    (groupVal g ≤ 9 → (groupBits g).length = 4) ∧
    (10 ≤ groupVal g → groupVal g ≤ 99 → (groupBits g).length = 7) ∧
    (100 ≤ groupVal g → (groupBits g).length = 10) ∧
    groupVal g < 2 ^ (groupBits g).length) ∧
  groupBits [0x30, 0x30, 0x31] = [false, false, false, true] ∧
  groupBits [0x30, 0x31, 0x32] = [false, false, false, true, true, false, false] ∧
  groupBits [0x30, 0x30, 0x30] = [false, false, false, false] ∧
  groupBits [0x30, 0x30] = [false, false, false, false] ∧
  groupBits [0x30] = [false, false, false, false] ∧
  groupBits [0x30, 0x39, 0x39] = [true, true, false, false, false, true, true]

/-- R138: the alphanumeric payload, pair by pair, and a last single character; on a valid text no field overflows. -/
def Obligations.AlphanumericPayloadIsThePairsInOrder : Prop :=
  (∀ t : List Byte, validText .aln t = true →
    payload .aln t =
      (List.range (t.length / 2)).flatMap (fun k =>
        bits 11 (alnAlphabet.idxOf (t.getD (2 * k) 0) * 45 + alnAlphabet.idxOf (t.getD (2 * k + 1) 0))) ++
      (if t.length % 2 = 1 then bits 6 (alnAlphabet.idxOf (t.getD (t.length - 1) 0)) else [])) ∧
  (∀ a b va vb, alnVal a = some va → alnVal b = some vb → va * 45 + vb ≤ 2024 ∧ va ≤ 44)

/-- R139: the byte payload is each byte in order in 8 bits. -/
def Obligations.BytePayloadIsTheBytesInOrder : Prop :=
  ∀ t : List Byte, (payload .byt t).length = 8 * t.length ∧
    ∀ k, k < 8 * t.length → (payload .byt t)[k]? = some ((t.getD (k / 8) 0).getLsbD (7 - k % 8))

/-! ### ENUM, EALN, EBYT -/

/-- R141, R142, R150-R152: on a ready, valid text that fits, at a valid version, each of the three encode commands answers the
segment: mode indicator, count, payload, padded to the capacity. -/
def Obligations.EncodeCommandsBuildTheSegment : Prop :=
  ∀ (m : Mode) (lvl : Level) (ver : BitVec 6) (s : State) (t : List Byte) (w : Nat),
    s.TextReady t → validText m t = true → countWidth m ver = some w → t.length < 2 ^ w →
    4 + w + (payload m t).length ≤ 8 * s.cfg.codewords lvl ver.toNat →
    exec (encodeCmd m lvl ver) s =
      .next { s with
        stream := padTo (modeIndicator m ++ bits w t.length ++ payload m t) (8 * s.cfg.codewords lvl ver.toNat)
        err := .ok, pend := none }

/-- R141, R182, R184: the errors of the three encode commands on a ready text, the first that applies: `E_CHARSET`,
`E_VERSION`, `E_RANGE` for the count, `E_RANGE` for the capacity; the stream is left empty. -/
def Obligations.EncodeErrorsInOrder : Prop :=
  ∀ (m : Mode) (lvl : Level) (ver : BitVec 6) (s : State) (t : List Byte), s.TextReady t →
    (validText m t = false →
      exec (encodeCmd m lvl ver) s = .next { s with stream := [], err := .charset, pend := none }) ∧
    (validText m t = true → (ver.toNat = 0 ∨ 41 ≤ ver.toNat) →
      exec (encodeCmd m lvl ver) s = .next { s with stream := [], err := .version, pend := none }) ∧
    (∀ w, validText m t = true → countWidth m ver = some w →
      (2 ^ w ≤ t.length ∨ 8 * s.cfg.codewords lvl ver.toNat < 4 + w + (payload m t).length) →
      exec (encodeCmd m lvl ver) s = .next { s with stream := [], err := .range, pend := none })

/-- R143: after a successful encode command, `EBEST` among them, the stream has exactly `8 * T_DC[LVL][VER]` bits and
`OUTLEN` is `T_DC[LVL][VER]`. -/
def Obligations.EncodedLengthIsTheCapacity : Prop :=
  ∀ (i : Instr) (lvl : Level) (ver : BitVec 6) (s t : State), s.cfg.valid = true → encodeArgs i = some (lvl, ver) →
    exec i s = .next t → t.err = .ok →
    t.bitLen = 8 * s.cfg.codewords lvl ver.toNat ∧
    (t.readReg .outlen).toNat = s.cfg.codewords lvl ver.toNat

/-- The data length before padding in each mode, and when an encode succeeds: 42_mode_encoders.md R144, which the spec marks
as its own inference from R141. -/
def Obligations.EncodeSucceedsExactlyWhenItFits : Prop :=
  (∀ (w : Nat) (t : List Byte), validText .num t = true →
    (segmentData .num w t).length = 4 + w + ((List.range ((t.length + 2) / 3)).map (fun k =>
      1 + 3 * groupSignificant ((t.drop (3 * k)).take 3))).sum ∧
    ((∀ k, 3 * k < t.length → t.getD (3 * k) 0 ≠ 0x30) →
      (segmentData .num w t).length = 4 + w + 10 * (t.length / 3) + [0, 4, 7].getD (t.length % 3) 0)) ∧
  (∀ (w : Nat) (t : List Byte), validText .aln t = true →
    (segmentData .aln w t).length = 4 + w + 11 * (t.length / 2) + 6 * (t.length % 2)) ∧
  (∀ (w : Nat) (t : List Byte), (segmentData .byt w t).length = 4 + w + 8 * t.length) ∧
  (∀ (p : Params) (m : Mode) (lvl : Level) (ver : BitVec 6) (t : List Byte),
    (∃ b, encodeSeg p m lvl ver t = .ok b) ↔
      validText m t = true ∧ 1 ≤ ver.toNat ∧ ver.toNat ≤ 40 ∧
      ∃ w, countWidth m ver = some w ∧ t.length < 2 ^ w ∧
        (segmentData m w t).length ≤ 8 * p.codewords lvl ver.toNat)

/-- R131 and the count field: a successful encode's stream begins with the mode indicator and the count of characters in
the width of R120. -/
def Obligations.SegmentBeginsWithModeAndCount : Prop :=
  ∀ (m : Mode) (lvl : Level) (ver : BitVec 6) (s t : State), exec (encodeCmd m lvl ver) s = .next t → t.err = .ok →
    t.stream.take 4 =
      (match m with
       | .num => [false, false, false, true]
       | .aln => [false, false, true, false]
       | .byt => [false, true, false, false]) ∧
    ∃ w, countWidth m ver = some w ∧ s.srcLen.toNat < 2 ^ w ∧ 4 + w ≤ t.bitLen ∧
      ∀ k, k < w → t.streamBit (4 + k) = s.srcLen.getLsbD (w - 1 - k)

/-- R140: an empty text encodes in every mode, at every valid version whose capacity holds the mode indicator and the count:
the segment is these two, no payload, then padding. -/
def Obligations.EmptyTextIsValid : Prop :=
  (∀ m : Mode, validText m [] = true ∧ payload m [] = []) ∧
  ∀ (m : Mode) (lvl : Level) (ver : BitVec 6) (s : State) (w : Nat), s.srcLen = 0 → s.srcOff.toNat ≤ s.cfg.inBytes →
    countWidth m ver = some w → 4 + w ≤ 8 * s.cfg.codewords lvl ver.toNat →
    exec (encodeCmd m lvl ver) s =
      .next { s with
        stream := padTo (modeIndicator m ++ List.replicate w false) (8 * s.cfg.codewords lvl ver.toNat)
        err := .ok, pend := none }

/-- R185: the descriptor check of `APR` and the encode commands, on exact naturals. -/
def Obligations.DescriptorIsCheckedFirst : Prop :=
  (∀ (i : Instr) (s : State), (isEncode i = true ∨ ∃ n, i = .apr n) →
    s.cfg.inBytes < s.srcOff.toNat + s.srcLen.toNat → exec i s = .next { s with err := .illegal, pend := none }) ∧
  (∀ (i : Instr) (s : State), (isEncode i = true ∨ ∃ n, i = .apr n) → s.srcLen = 0 → s.srcOff.toNat ≤ s.cfg.inBytes →
    ∃ t, exec i s = .next t ∧ t.err ≠ .illegal)

/-- The byte encoder against the low-level commands: `CLR`, the mode indicator by `APB`, `ECNT`, `APR` of the whole text and
`PAD` to the capacity leave exactly the state that a successful `EBYT` leaves (the shape of 95_test_vectors.md programs Q1
and Q4, for every text, level and version). -/
def Obligations.HandBuiltByteSegmentEqualsEbyt : Prop :=
  ∀ (lvl : Level) (ver : BitVec 6) (s t : State), s.cfg.valid = true → exec (.ebyt lvl ver) s = .next t → t.err = .ok →
    execAll [.clr, .apb 4#5 0x4000#16, .ecnt .byt ver s.srcLen, .apr (BitVec.ofNat 16 (8 * s.srcLen.toNat)),
      .pad (BitVec.ofNat 16 (s.cfg.codewords lvl ver.toNat))] s = .next t

/-! ### EBEST -/

/-- The checks of `EncodeSeg` (42_mode_encoders.md R141) pass for text `t` in mode `m`, whose count field has `w` bits. -/
def Sys2Proof.Machine.FitsIn (p : Params) (m : Mode) (lvl : Level) (ver : BitVec 6) (t : List Byte) (w : Nat) : Prop :=
  validText m t = true ∧ countWidth m ver = some w ∧ t.length < 2 ^ w ∧
  4 + w + (payload m t).length ≤ 8 * p.codewords lvl ver.toNat

/-- R170: on a ready text `EBEST` leaves the segment of the first of numeric, alphanumeric, byte in which the text fits, and an
empty stream with `E_NOMODE` when it fits in none, whatever the reasons. -/
def Obligations.EbestTakesTheFirstModeThatSucceeds : Prop :=
  ∀ (lvl : Level) (ver : BitVec 6) (s : State) (t : List Byte), s.TextReady t →
    (∀ (m : Mode) (w : Nat), FitsIn s.cfg m lvl ver t w →
      (m ≠ .num → ∀ v, ¬ FitsIn s.cfg .num lvl ver t v) →
      (m = .byt → ∀ v, ¬ FitsIn s.cfg .aln lvl ver t v) →
      exec (.ebest lvl ver) s =
        .next { s with
          stream := padTo (modeIndicator m ++ bits w t.length ++ payload m t) (8 * s.cfg.codewords lvl ver.toNat)
          err := .ok, pend := none }) ∧
    ((∀ m w, ¬ FitsIn s.cfg m lvl ver t w) →
      exec (.ebest lvl ver) s = .next { s with stream := [], err := .noMode, pend := none })

/-- The outcomes of 44_selector_tables.md R171, which the spec marks as its own inference from R170 and R141: digits go to
numeric mode when it succeeds; a byte outside the alphanumeric alphabet sends the text to byte mode;
other alphanumeric text goes to alphanumeric mode when it succeeds. -/
def Obligations.SelectorOutcomes : Prop :=
  ∀ (lvl : Level) (ver : BitVec 6) (s u : State) (t : List Byte), s.TextReady t → u.err = .ok →
    (validText .num t = true → exec (.enum lvl ver) s = .next u → exec (.ebest lvl ver) s = .next u) ∧
    (validText .num t = false → validText .aln t = true → exec (.ealn lvl ver) s = .next u →
      exec (.ebest lvl ver) s = .next u) ∧
    (validText .aln t = false → exec (.ebyt lvl ver) s = .next u →
      exec (.ebest lvl ver) s = .next u ∧
      exec (.enum lvl ver) s = .next { s with stream := [], err := .charset, pend := none } ∧
      exec (.ealn lvl ver) s = .next { s with stream := [], err := .charset, pend := none })

/-! ### CAPQ -/

/-- R172: `CAPQ` reads row `LVL`, column `VER - 1` of the table, for every table and level and every version 1..40, and raises
`E_VERSION` at any other version, with `CAPVAL` kept. -/
def Obligations.CapqReadsTheTable : Prop :=
  ∀ (tbl : TblSel) (lvl : Level) (ver : BitVec 6) (s : State),
    (∀ h : 1 ≤ ver.toNat ∧ ver.toNat ≤ 40,
      exec (.capq tbl lvl ver) s =
        .next { s with
          capVal := ((match tbl with
            | .dc => s.cfg.tDC
            | .num => s.cfg.tNUM
            | .aln => s.cfg.tALN
            | .byt => s.cfg.tBYT
            | .kan => s.cfg.tKAN).row lvl)[ver.toNat - 1]'(by omega)
          err := .ok, pend := none }) ∧
    ((ver.toNat = 0 ∨ 41 ≤ ver.toNat) →
      exec (.capq tbl lvl ver) s = .next { s with err := .version, pend := none })

/-! ### The host's accesses -/

/-- No read has a side effect (20_memory.md R60): only the model's own record of the data read changes (log 3), and a second
read of the same location returns the same data. For an IN byte not written since reset the second half is the model's
choice, not the spec's: 60_exceptions.md R189 says any value, and that it stays the same between two reads is log 9. -/
def Obligations.ReadsHaveNoSideEffect : Prop :=
  ∀ (off : BitVec 14) (width : Width) (s t : State), hostAccess (.read off width) s = .next t →
    ∃ d, t = { s with lastRead := some d } ∧ hostAccess (.read off width) t = .next t

/-- R25: the fields of `STATUS`, and a write to it is ignored. -/
def Obligations.StatusRegisterFields : Prop :=
  ∀ s : State,
    (∃ v, s.Reads 0x004#14 .w32 (.b32 v) ∧
      slice v 31 31 = (if s.pend = none then 0 else 1) ∧ slice v 30 4 = 0 ∧ slice v 3 0 ≤ 5 ∧
      slice v 3 0 = (match s.err with
        | .ok => 0 | .charset => 1 | .version => 2 | .range => 3 | .noMode => 4 | .illegal => 5)) ∧
    (∀ w, hostAccess (.write 0x004#14 (.b32 w)) s = .next s)

/-- R23, R26, R27: `BITLEN` reads `N` and `OUTLEN` reads `⌈N/8⌉`, both in bits 15:0 with 31:16 zero, and writes to them are
ignored. -/
def Obligations.LengthRegisters : Prop :=
  ∀ s : State, s.Inv →
    (∃ v, s.Reads 0x008#14 .w32 (.b32 v) ∧ v.toNat = s.stream.length) ∧
    (∃ v, s.Reads 0x00C#14 .w32 (.b32 v) ∧ v.toNat = (s.stream.length + 7) / 8) ∧
    (∀ w, hostAccess (.write 0x008#14 (.b32 w)) s = .next s ∧ hostAccess (.write 0x00C#14 (.b32 w)) s = .next s)

/-- `SRC_OFF`, `SRC_LEN` and `CAPVAL` (10_state.md R28, R29): a write to an operand register while idle sets bits 15:0 of that
register alone, every 16-bit value is taken, and bits 31:16 read 0; `CAPVAL` ignores writes. -/
def Obligations.OperandAndResultRegisters : Prop :=
  ∀ s : State,
    (∀ w : Word, s.pend = none →
      hostAccess (.write 0x010#14 (.b32 w)) s = .next { s with srcOff := BitVec.ofNat 16 w.toNat } ∧
      hostAccess (.write 0x014#14 (.b32 w)) s = .next { s with srcLen := BitVec.ofNat 16 w.toNat }) ∧
    (∃ v, s.Reads 0x010#14 .w32 (.b32 v) ∧ v.toNat = s.srcOff.toNat) ∧
    (∃ v, s.Reads 0x014#14 .w32 (.b32 v) ∧ v.toNat = s.srcLen.toNat) ∧
    (∃ v, s.Reads 0x018#14 .w32 (.b32 v) ∧ v.toNat = s.capVal.toNat) ∧
    (∀ w, hostAccess (.write 0x018#14 (.b32 w)) s = .next s)

/-- R24, R206: a `CMD` write while idle makes the word pending, sets `BUSY` and clears `ERR`; while busy it faults; `CMD` reads
0. -/
def Obligations.CommandAcceptance : Prop :=
  ∀ (s : State) (w : Word),
    (s.pend = none → hostAccess (.write 0x000#14 (.b32 w)) s = .next { s with pend := some w, err := .ok }) ∧
    (s.pend ≠ none → hostAccess (.write 0x000#14 (.b32 w)) s = .fault .cmdWhileBusy) ∧
    s.Reads 0x000#14 .w32 (.b32 0)

/-- R207: a write of `SRC_OFF`, `SRC_LEN` or an IN byte while busy faults with its offset; a legal write to any other location
but `CMD` is ignored, busy or not. -/
def Obligations.OperandWritesWhileBusyFault : Prop :=
  (∀ (s : State) (w : Word), s.pend ≠ none →
    hostAccess (.write 0x010#14 (.b32 w)) s = .fault (.operandWriteWhileBusy 0x010) ∧
    hostAccess (.write 0x014#14 (.b32 w)) s = .fault (.operandWriteWhileBusy 0x014)) ∧
  (∀ (s : State) (off : BitVec 14) (b : Byte), s.pend ≠ none → 0x1000 ≤ off.toNat →
    off.toNat < 0x1000 + s.cfg.inBytes →
    hostAccess (.write off (.b8 b)) s = .fault (.operandWriteWhileBusy off.toNat)) ∧
  (∀ (s : State) (off : BitVec 14) (w : Word), off.toNat < 0x1000 → off.toNat % 4 = 0 →
    off.toNat ≠ 0x000 → off.toNat ≠ 0x010 → off.toNat ≠ 0x014 → hostAccess (.write off (.b32 w)) s = .next s) ∧
  (∀ (s : State) (off : BitVec 14) (b : Byte), 0x1000 + s.cfg.inBytes ≤ off.toNat →
    hostAccess (.write off (.b8 b)) s = .next s)

/-- R57: a legal access to an unmapped offset reads 0, and `CMD` reads 0 (the ignored writes are
`OperandWritesWhileBusyFault`'s last two clauses). -/
def Obligations.UnmappedOffsetsReadZero : Prop :=
  ∀ (s : State) (off : BitVec 14), s.cfg.valid = true →
    (0x020 ≤ off.toNat → off.toNat < 0x1000 → off.toNat % 4 = 0 → s.Reads off .w32 (.b32 0)) ∧
    (0x1000 + s.cfg.inBytes ≤ off.toNat → off.toNat < 0x2000 → s.Reads off .w8 (.b8 0)) ∧
    (0x2000 + s.cfg.bufBytes ≤ off.toNat → s.Reads off .w8 (.b8 0))

/-- R52, R53: an IN byte written while idle reads back, every other IN byte keeps its value, and an OUT byte reads
`BUF[k]`. -/
def Obligations.WindowBytes : Prop :=
  (∀ (s : State) (off : BitVec 14) (b : Byte), s.pend = none → 0x1000 ≤ off.toNat →
    off.toNat < 0x1000 + s.cfg.inBytes →
    ∃ t, hostAccess (.write off (.b8 b)) s = .next t ∧ t = { s with inMem := t.inMem } ∧
      t.Reads off .w8 (.b8 b) ∧ t.inMem.read (off.toNat - 0x1000) = some b ∧
      ∀ a, a ≠ off.toNat - 0x1000 → t.inMem.read a = s.inMem.read a) ∧
  (∀ (s : State) (off : BitVec 14), s.cfg.valid = true → 0x2000 ≤ off.toNat → off.toNat < 0x2000 + s.cfg.bufBytes →
    s.Reads off .w8 (.b8 (s.bufByte (off.toNat - 0x2000))))

/-- Only the two legal shapes of 20_memory.md R56 are accepted; any other read or write faults with its offset and width, and
a legal one never faults so. That a write's shape is judged before the busy protocol is the model's choice (log 14). -/
def Obligations.OtherAccessShapesFault : Prop :=
  ∀ (s : State) (off : BitVec 14) (width : Width),
    (¬ ((width = .w32 ∧ off.toNat < 0x1000 ∧ off.toNat % 4 = 0) ∨ (width = .w8 ∧ 0x1000 ≤ off.toNat)) →
      hostAccess (.read off width) s = .fault (.accessShape off.toNat width) ∧
      ∀ d : RData, d.width = width → hostAccess (.write off d) s = .fault (.accessShape off.toNat width)) ∧
    (((width = .w32 ∧ off.toNat < 0x1000 ∧ off.toNat % 4 = 0) ∨ (width = .w8 ∧ 0x1000 ≤ off.toNat)) →
      (∃ t, hostAccess (.read off width) s = .next t) ∧
      ∀ (d : RData) (o : Nat) (x : Width), d.width = width → hostAccess (.write off d) s ≠ .fault (.accessShape o x))

/-- R82: `APBV cnt, v` expands to one `APB` that appends `v` in `cnt` bits, and the assembler refuses other operands; `MODEI`
expands to an `APB` that appends the mode indicator; `NOP` to no word. -/
def Obligations.PseudoInstructionsExpand : Prop :=
  (∀ (cnt v : Nat) (s : State), cnt ≤ 16 → v < 2 ^ cnt → s.bitLen + cnt ≤ 8 * s.cfg.bufBytes →
    ∃ l, (Pseudo.apbv cnt v).expand = some l ∧
      execAll l s = .next { s with stream := s.stream ++ bits cnt v, err := .ok, pend := none }) ∧
  (∀ cnt v : Nat, ¬ (cnt ≤ 16 ∧ v < 2 ^ cnt) → (Pseudo.apbv cnt v).expand = none) ∧
  (∀ (m : Mode) (s : State), s.bitLen + 4 ≤ 8 * s.cfg.bufBytes →
    ∃ l, (Pseudo.modei m).expand = some l ∧
      execAll l s = .next { s with stream := s.stream ++ modeIndicator m, err := .ok, pend := none }) ∧
  Pseudo.nop.expand = some []
end

