-- ==== Sys2Proof/Laws/Bits.lean ====
section
/-! SUPPORT. Bit sequences: lengths and the bit at each index of `bits`, `byteBits` and the pad pattern; fields placed in a
word. -/

namespace Sys2Proof.Machine

@[simp] theorem length_bits (w v : Nat) : (bits w v).length = w := by
  induction w with
  | zero => rfl
  | succ w ih => simp [bits, ih]

/-- Bit `k` of `bits_w(v)` is bit `w - 1 - k` of `v`. -/
theorem getElem?_bits {w v k : Nat} (h : k < w) : (bits w v)[k]? = some (v.testBit (w - 1 - k)) := by
  induction w generalizing k with
  | zero => omega
  | succ w ih =>
    cases k with
    | zero => simp [bits]
    | succ k =>
      have := ih (k := k) (by omega)
      simp only [bits, List.getElem?_cons_succ, this]
      congr 2; omega

@[simp] theorem length_byteBits (l : List Byte) : (byteBits l).length = 8 * l.length := by
  induction l with
  | nil => rfl
  | cons b rest ih => simp [byteBits, ih]; omega

/-- Bit `k` of the bits of a byte sequence is bit `7 - k mod 8` of byte `k div 8`. -/
theorem getElem?_byteBits {l : List Byte} {k : Nat} (h : k < 8 * l.length) :
    (byteBits l)[k]? = (l[k / 8]?).map (fun b => b.getLsbD (7 - k % 8)) := by
  induction l generalizing k with
  | nil => simp at h
  | cons b rest ih =>
    simp only [byteBits]
    by_cases hk : k < 8
    · rw [List.getElem?_append_left (by simpa using hk), getElem?_bits hk]
      have h0 : k / 8 = 0 := by omega
      have hm : k % 8 = k := by omega
      simp [h0, hm, BitVec.getLsbD]
    · rw [List.getElem?_append_right (by simpa using hk)]
      simp only [length_bits, List.length_cons] at *
      rw [ih (by omega)]
      have h1 : k / 8 = (k - 8) / 8 + 1 := by omega
      have h2 : k % 8 = (k - 8) % 8 := by omega
      simp [h1, h2]

@[simp] theorem length_padPat (i r : Nat) : (padPat i r).length = r := by
  induction r generalizing i with
  | zero => rfl
  | succ r ih => simp [padPat, ih]

/-- Bit `k` of the pattern counted from bit `i`. -/
theorem getElem?_padPat {i r k : Nat} (h : k < r) : (padPat i r)[k]? = some (padPatBit (i + k)) := by
  induction r generalizing i k with
  | zero => omega
  | succ r ih =>
    cases k with
    | zero => simp [padPat]
    | succ k =>
      simp only [padPat, List.getElem?_cons_succ]
      rw [ih (by omega)]; congr 2; omega

@[simp] theorem length_modeIndicator (m : Mode) : (modeIndicator m).length = 4 := by cases m <;> rfl

@[simp] theorem length_segmentData (m : Mode) (w : Nat) (t : List Byte) :
    (segmentData m w t).length = 4 + w + (payload m t).length := by simp [segmentData, Nat.add_assoc]

/-- A field of at most 32 bits placed at bit 0 keeps its value. -/
theorem toNat_place_zero {n : Nat} (x : BitVec n) (h : n ≤ 32) : (place 0 x).toNat = x.toNat := by
  have : x.toNat < 2 ^ 32 := Nat.lt_of_lt_of_le x.isLt (Nat.pow_le_pow_right (by omega) h)
  simp only [place, BitVec.shiftLeft_zero, BitVec.toNat_setWidth]
  exact Nat.mod_eq_of_lt this

end Sys2Proof.Machine
end

