-- ==== Sys2Proof/Laws/State.lean ====
section
/-! SUPPORT. One lemma per field per update of `State`, all by `rfl`, and the views of the state they decide: no proof
unfolds a record update. -/

namespace Sys2Proof.Machine

/-! ### `State.append` -/

@[simp] theorem State.append_stream (s : State) (b : Bits) : (s.append b).stream = s.stream ++ b := rfl
@[simp] theorem State.append_pend (s : State) (b : Bits) : (s.append b).pend = s.pend := rfl
@[simp] theorem State.append_err (s : State) (b : Bits) : (s.append b).err = s.err := rfl
@[simp] theorem State.append_srcOff (s : State) (b : Bits) : (s.append b).srcOff = s.srcOff := rfl
@[simp] theorem State.append_srcLen (s : State) (b : Bits) : (s.append b).srcLen = s.srcLen := rfl
@[simp] theorem State.append_capVal (s : State) (b : Bits) : (s.append b).capVal = s.capVal := rfl
@[simp] theorem State.append_inMem (s : State) (b : Bits) : (s.append b).inMem = s.inMem := rfl
@[simp] theorem State.append_cfg (s : State) (b : Bits) : (s.append b).cfg = s.cfg := rfl
@[simp] theorem State.append_turns (s : State) (b : Bits) : (s.append b).turns = s.turns := rfl
@[simp] theorem State.append_lastRead (s : State) (b : Bits) : (s.append b).lastRead = s.lastRead := rfl
@[simp] theorem State.append_epoch (s : State) (b : Bits) : (s.append b).epoch = s.epoch := rfl

/-! ### `State.setStream` -/

@[simp] theorem State.setStream_stream (s : State) (b : Bits) : (s.setStream b).stream = b := rfl
@[simp] theorem State.setStream_pend (s : State) (b : Bits) : (s.setStream b).pend = s.pend := rfl
@[simp] theorem State.setStream_err (s : State) (b : Bits) : (s.setStream b).err = s.err := rfl
@[simp] theorem State.setStream_srcOff (s : State) (b : Bits) : (s.setStream b).srcOff = s.srcOff := rfl
@[simp] theorem State.setStream_srcLen (s : State) (b : Bits) : (s.setStream b).srcLen = s.srcLen := rfl
@[simp] theorem State.setStream_capVal (s : State) (b : Bits) : (s.setStream b).capVal = s.capVal := rfl
@[simp] theorem State.setStream_inMem (s : State) (b : Bits) : (s.setStream b).inMem = s.inMem := rfl
@[simp] theorem State.setStream_cfg (s : State) (b : Bits) : (s.setStream b).cfg = s.cfg := rfl
@[simp] theorem State.setStream_turns (s : State) (b : Bits) : (s.setStream b).turns = s.turns := rfl
@[simp] theorem State.setStream_lastRead (s : State) (b : Bits) : (s.setStream b).lastRead = s.lastRead := rfl
@[simp] theorem State.setStream_epoch (s : State) (b : Bits) : (s.setStream b).epoch = s.epoch := rfl

/-! ### `State.setCapVal` -/

@[simp] theorem State.setCapVal_stream (s : State) (v : Half) : (s.setCapVal v).stream = s.stream := rfl
@[simp] theorem State.setCapVal_pend (s : State) (v : Half) : (s.setCapVal v).pend = s.pend := rfl
@[simp] theorem State.setCapVal_err (s : State) (v : Half) : (s.setCapVal v).err = s.err := rfl
@[simp] theorem State.setCapVal_srcOff (s : State) (v : Half) : (s.setCapVal v).srcOff = s.srcOff := rfl
@[simp] theorem State.setCapVal_srcLen (s : State) (v : Half) : (s.setCapVal v).srcLen = s.srcLen := rfl
@[simp] theorem State.setCapVal_capVal (s : State) (v : Half) : (s.setCapVal v).capVal = v := rfl
@[simp] theorem State.setCapVal_inMem (s : State) (v : Half) : (s.setCapVal v).inMem = s.inMem := rfl
@[simp] theorem State.setCapVal_cfg (s : State) (v : Half) : (s.setCapVal v).cfg = s.cfg := rfl
@[simp] theorem State.setCapVal_turns (s : State) (v : Half) : (s.setCapVal v).turns = s.turns := rfl
@[simp] theorem State.setCapVal_lastRead (s : State) (v : Half) : (s.setCapVal v).lastRead = s.lastRead := rfl
@[simp] theorem State.setCapVal_epoch (s : State) (v : Half) : (s.setCapVal v).epoch = s.epoch := rfl

/-! ### `State.setSrcOff` -/

@[simp] theorem State.setSrcOff_stream (s : State) (v : Half) : (s.setSrcOff v).stream = s.stream := rfl
@[simp] theorem State.setSrcOff_pend (s : State) (v : Half) : (s.setSrcOff v).pend = s.pend := rfl
@[simp] theorem State.setSrcOff_err (s : State) (v : Half) : (s.setSrcOff v).err = s.err := rfl
@[simp] theorem State.setSrcOff_srcOff (s : State) (v : Half) : (s.setSrcOff v).srcOff = v := rfl
@[simp] theorem State.setSrcOff_srcLen (s : State) (v : Half) : (s.setSrcOff v).srcLen = s.srcLen := rfl
@[simp] theorem State.setSrcOff_capVal (s : State) (v : Half) : (s.setSrcOff v).capVal = s.capVal := rfl
@[simp] theorem State.setSrcOff_inMem (s : State) (v : Half) : (s.setSrcOff v).inMem = s.inMem := rfl
@[simp] theorem State.setSrcOff_cfg (s : State) (v : Half) : (s.setSrcOff v).cfg = s.cfg := rfl
@[simp] theorem State.setSrcOff_turns (s : State) (v : Half) : (s.setSrcOff v).turns = s.turns := rfl
@[simp] theorem State.setSrcOff_lastRead (s : State) (v : Half) : (s.setSrcOff v).lastRead = s.lastRead := rfl
@[simp] theorem State.setSrcOff_epoch (s : State) (v : Half) : (s.setSrcOff v).epoch = s.epoch := rfl

/-! ### `State.setSrcLen` -/

@[simp] theorem State.setSrcLen_stream (s : State) (v : Half) : (s.setSrcLen v).stream = s.stream := rfl
@[simp] theorem State.setSrcLen_pend (s : State) (v : Half) : (s.setSrcLen v).pend = s.pend := rfl
@[simp] theorem State.setSrcLen_err (s : State) (v : Half) : (s.setSrcLen v).err = s.err := rfl
@[simp] theorem State.setSrcLen_srcOff (s : State) (v : Half) : (s.setSrcLen v).srcOff = s.srcOff := rfl
@[simp] theorem State.setSrcLen_srcLen (s : State) (v : Half) : (s.setSrcLen v).srcLen = v := rfl
@[simp] theorem State.setSrcLen_capVal (s : State) (v : Half) : (s.setSrcLen v).capVal = s.capVal := rfl
@[simp] theorem State.setSrcLen_inMem (s : State) (v : Half) : (s.setSrcLen v).inMem = s.inMem := rfl
@[simp] theorem State.setSrcLen_cfg (s : State) (v : Half) : (s.setSrcLen v).cfg = s.cfg := rfl
@[simp] theorem State.setSrcLen_turns (s : State) (v : Half) : (s.setSrcLen v).turns = s.turns := rfl
@[simp] theorem State.setSrcLen_lastRead (s : State) (v : Half) : (s.setSrcLen v).lastRead = s.lastRead := rfl
@[simp] theorem State.setSrcLen_epoch (s : State) (v : Half) : (s.setSrcLen v).epoch = s.epoch := rfl

/-! ### `State.setIn` -/

@[simp] theorem State.setIn_stream (s : State) (i : Nat) (b : Byte) : (s.setIn i b).stream = s.stream := rfl
@[simp] theorem State.setIn_pend (s : State) (i : Nat) (b : Byte) : (s.setIn i b).pend = s.pend := rfl
@[simp] theorem State.setIn_err (s : State) (i : Nat) (b : Byte) : (s.setIn i b).err = s.err := rfl
@[simp] theorem State.setIn_srcOff (s : State) (i : Nat) (b : Byte) : (s.setIn i b).srcOff = s.srcOff := rfl
@[simp] theorem State.setIn_srcLen (s : State) (i : Nat) (b : Byte) : (s.setIn i b).srcLen = s.srcLen := rfl
@[simp] theorem State.setIn_capVal (s : State) (i : Nat) (b : Byte) : (s.setIn i b).capVal = s.capVal := rfl
@[simp] theorem State.setIn_inMem (s : State) (i : Nat) (b : Byte) : (s.setIn i b).inMem = s.inMem.write i b := rfl
@[simp] theorem State.setIn_cfg (s : State) (i : Nat) (b : Byte) : (s.setIn i b).cfg = s.cfg := rfl
@[simp] theorem State.setIn_turns (s : State) (i : Nat) (b : Byte) : (s.setIn i b).turns = s.turns := rfl
@[simp] theorem State.setIn_lastRead (s : State) (i : Nat) (b : Byte) : (s.setIn i b).lastRead = s.lastRead := rfl
@[simp] theorem State.setIn_epoch (s : State) (i : Nat) (b : Byte) : (s.setIn i b).epoch = s.epoch := rfl

/-! ### `State.setLastRead` -/

@[simp] theorem State.setLastRead_stream (s : State) (d : RData) : (s.setLastRead d).stream = s.stream := rfl
@[simp] theorem State.setLastRead_pend (s : State) (d : RData) : (s.setLastRead d).pend = s.pend := rfl
@[simp] theorem State.setLastRead_err (s : State) (d : RData) : (s.setLastRead d).err = s.err := rfl
@[simp] theorem State.setLastRead_srcOff (s : State) (d : RData) : (s.setLastRead d).srcOff = s.srcOff := rfl
@[simp] theorem State.setLastRead_srcLen (s : State) (d : RData) : (s.setLastRead d).srcLen = s.srcLen := rfl
@[simp] theorem State.setLastRead_capVal (s : State) (d : RData) : (s.setLastRead d).capVal = s.capVal := rfl
@[simp] theorem State.setLastRead_inMem (s : State) (d : RData) : (s.setLastRead d).inMem = s.inMem := rfl
@[simp] theorem State.setLastRead_cfg (s : State) (d : RData) : (s.setLastRead d).cfg = s.cfg := rfl
@[simp] theorem State.setLastRead_turns (s : State) (d : RData) : (s.setLastRead d).turns = s.turns := rfl
@[simp] theorem State.setLastRead_lastRead (s : State) (d : RData) : (s.setLastRead d).lastRead = some d := rfl
@[simp] theorem State.setLastRead_epoch (s : State) (d : RData) : (s.setLastRead d).epoch = s.epoch := rfl

/-! ### `State.setTurns` -/

@[simp] theorem State.setTurns_stream (s : State) (l : List Turn) : (s.setTurns l).stream = s.stream := rfl
@[simp] theorem State.setTurns_pend (s : State) (l : List Turn) : (s.setTurns l).pend = s.pend := rfl
@[simp] theorem State.setTurns_err (s : State) (l : List Turn) : (s.setTurns l).err = s.err := rfl
@[simp] theorem State.setTurns_srcOff (s : State) (l : List Turn) : (s.setTurns l).srcOff = s.srcOff := rfl
@[simp] theorem State.setTurns_srcLen (s : State) (l : List Turn) : (s.setTurns l).srcLen = s.srcLen := rfl
@[simp] theorem State.setTurns_capVal (s : State) (l : List Turn) : (s.setTurns l).capVal = s.capVal := rfl
@[simp] theorem State.setTurns_inMem (s : State) (l : List Turn) : (s.setTurns l).inMem = s.inMem := rfl
@[simp] theorem State.setTurns_cfg (s : State) (l : List Turn) : (s.setTurns l).cfg = s.cfg := rfl
@[simp] theorem State.setTurns_turns (s : State) (l : List Turn) : (s.setTurns l).turns = l := rfl
@[simp] theorem State.setTurns_lastRead (s : State) (l : List Turn) : (s.setTurns l).lastRead = s.lastRead := rfl
@[simp] theorem State.setTurns_epoch (s : State) (l : List Turn) : (s.setTurns l).epoch = s.epoch := rfl

/-! ### `State.accept` -/

@[simp] theorem State.accept_stream (s : State) (w : Word) : (s.accept w).stream = s.stream := rfl
@[simp] theorem State.accept_pend (s : State) (w : Word) : (s.accept w).pend = some w := rfl
@[simp] theorem State.accept_err (s : State) (w : Word) : (s.accept w).err = .ok := rfl
@[simp] theorem State.accept_srcOff (s : State) (w : Word) : (s.accept w).srcOff = s.srcOff := rfl
@[simp] theorem State.accept_srcLen (s : State) (w : Word) : (s.accept w).srcLen = s.srcLen := rfl
@[simp] theorem State.accept_capVal (s : State) (w : Word) : (s.accept w).capVal = s.capVal := rfl
@[simp] theorem State.accept_inMem (s : State) (w : Word) : (s.accept w).inMem = s.inMem := rfl
@[simp] theorem State.accept_cfg (s : State) (w : Word) : (s.accept w).cfg = s.cfg := rfl
@[simp] theorem State.accept_turns (s : State) (w : Word) : (s.accept w).turns = s.turns := rfl
@[simp] theorem State.accept_lastRead (s : State) (w : Word) : (s.accept w).lastRead = s.lastRead := rfl
@[simp] theorem State.accept_epoch (s : State) (w : Word) : (s.accept w).epoch = s.epoch := rfl

/-! ### `State.complete` -/

@[simp] theorem State.complete_stream (s : State) (e : ErrCode) : (s.complete e).stream = s.stream := rfl
@[simp] theorem State.complete_pend (s : State) (e : ErrCode) : (s.complete e).pend = none := rfl
@[simp] theorem State.complete_err (s : State) (e : ErrCode) : (s.complete e).err = e := rfl
@[simp] theorem State.complete_srcOff (s : State) (e : ErrCode) : (s.complete e).srcOff = s.srcOff := rfl
@[simp] theorem State.complete_srcLen (s : State) (e : ErrCode) : (s.complete e).srcLen = s.srcLen := rfl
@[simp] theorem State.complete_capVal (s : State) (e : ErrCode) : (s.complete e).capVal = s.capVal := rfl
@[simp] theorem State.complete_inMem (s : State) (e : ErrCode) : (s.complete e).inMem = s.inMem := rfl
@[simp] theorem State.complete_cfg (s : State) (e : ErrCode) : (s.complete e).cfg = s.cfg := rfl
@[simp] theorem State.complete_turns (s : State) (e : ErrCode) : (s.complete e).turns = s.turns := rfl
@[simp] theorem State.complete_lastRead (s : State) (e : ErrCode) : (s.complete e).lastRead = s.lastRead := rfl
@[simp] theorem State.complete_epoch (s : State) (e : ErrCode) : (s.complete e).epoch = s.epoch := rfl

/-! ### `State.applyReset` -/

@[simp] theorem State.applyReset_stream (s : State) : (s.applyReset).stream = [] := rfl
@[simp] theorem State.applyReset_pend (s : State) : (s.applyReset).pend = none := rfl
@[simp] theorem State.applyReset_err (s : State) : (s.applyReset).err = .ok := rfl
@[simp] theorem State.applyReset_srcOff (s : State) : (s.applyReset).srcOff = 0 := rfl
@[simp] theorem State.applyReset_srcLen (s : State) : (s.applyReset).srcLen = 0 := rfl
@[simp] theorem State.applyReset_capVal (s : State) : (s.applyReset).capVal = 0 := rfl
@[simp] theorem State.applyReset_inMem (s : State) : (s.applyReset).inMem = [] := rfl
@[simp] theorem State.applyReset_cfg (s : State) : (s.applyReset).cfg = s.cfg := rfl
@[simp] theorem State.applyReset_turns (s : State) : (s.applyReset).turns = s.turns := rfl
@[simp] theorem State.applyReset_lastRead (s : State) : (s.applyReset).lastRead = s.lastRead := rfl
@[simp] theorem State.applyReset_epoch (s : State) : (s.applyReset).epoch = s.epoch + 1 := rfl

/-! ### Views -/

@[simp] theorem State.append_bitLen (s : State) (b : Bits) : (s.append b).bitLen = s.bitLen + b.length := by
  simp [State.bitLen]
@[simp] theorem State.setStream_bitLen (s : State) (b : Bits) : (s.setStream b).bitLen = b.length := rfl
@[simp] theorem State.complete_bitLen (s : State) (e : ErrCode) : (s.complete e).bitLen = s.bitLen := rfl
@[simp] theorem State.complete_busy (s : State) (e : ErrCode) : (s.complete e).busy = false := rfl
@[simp] theorem State.accept_busy (s : State) (w : Word) : (s.accept w).busy = true := rfl
@[simp] theorem State.complete_setTurns (s : State) (e : ErrCode) (l : List Turn) :
    (s.complete e).setTurns l = (s.setTurns l).complete e := rfl

end Sys2Proof.Machine
end

