-- ==== Sys2Proof/Laws/Memory.lean ====
section
/-! SUPPORT. The IN window: a read after a write, the canonical form and the window's size are kept, equal reads are equal
windows, and what `readBytes` answers. -/

namespace Sys2Proof.Machine

@[simp] theorem Memory.read_write_same (m : Memory) (i : Nat) (v : Byte) : (m.write i v).read i = some v := by
  induction m with
  | nil => simp [Memory.write, Memory.read]
  | cons c rest ih =>
    obtain ⟨a, b⟩ := c
    simp only [Memory.write]
    split
    · simp [Memory.read]
    · split
      · simp [Memory.read]
      · simp [Memory.read, *]

theorem Memory.read_write_other (m : Memory) {i j : Nat} (v : Byte) (h : j ≠ i) :
    (m.write i v).read j = m.read j := by
  induction m with
  | nil => simp [Memory.write, Memory.read, h]
  | cons c rest ih =>
    obtain ⟨a, b⟩ := c
    simp only [Memory.write]
    split
    · simp [Memory.read, h]
    · split
      · subst_vars; simp [Memory.read, h]
      · simp [Memory.read, ih]

/-- Every cell of a written window is the new one or an old one. -/
theorem Memory.mem_write {m : Memory} {i : Nat} {v : Byte} {c : Host.Cell} (h : c ∈ m.write i v) :
    c = (i, v) ∨ c ∈ m := by
  induction m with
  | nil => simpa [Memory.write] using h
  | cons d rest ih =>
    obtain ⟨a, b⟩ := d
    simp only [Memory.write] at h
    split at h
    · simpa using h
    · split at h
      · rcases List.mem_cons.1 h with h | h
        · exact .inl h
        · exact .inr (List.mem_cons_of_mem _ h)
      · rcases List.mem_cons.1 h with h | h
        · exact .inr (h ▸ List.mem_cons_self)
        · exact (ih h).imp id (List.mem_cons_of_mem _)

/-- `Memory.write` keeps the canonical form. -/
theorem Memory.write_wf {m : Memory} (h : m.wf) (i : Nat) (v : Byte) : (m.write i v).wf := by
  induction m with
  | nil => exact List.pairwise_singleton _ _
  | cons c rest ih =>
    obtain ⟨a, b⟩ := c
    obtain ⟨ha, hr⟩ := List.pairwise_cons.1 h
    simp only [Memory.write]
    split
    · rename_i hia
      refine List.pairwise_cons.2 ⟨fun c hc => ?_, h⟩
      rcases List.mem_cons.1 hc with rfl | hc
      · exact hia
      · exact Nat.lt_trans hia (ha c hc)
    · split
      · rename_i hia; subst hia; exact List.pairwise_cons.2 ⟨ha, hr⟩
      · refine List.pairwise_cons.2 ⟨fun c hc => ?_, ih hr⟩
        rcases Memory.mem_write hc with rfl | hc
        · simp only; omega
        · exact ha c hc

/-- `Memory.write` inside the window keeps the window's size. -/
theorem Memory.write_within {m : Memory} {n i : Nat} (h : m.within n) (hi : i < n) (v : Byte) :
    (m.write i v).within n := by
  intro c hc
  rcases Memory.mem_write hc with rfl | hc
  · exact hi
  · exact h c hc

/-- A listed index is one of the cells'. -/
theorem Memory.mem_of_read {m : Memory} {i : Nat} {v : Byte} (h : m.read i = some v) : (i, v) ∈ m := by
  induction m with
  | nil => simp [Memory.read] at h
  | cons c rest ih =>
    obtain ⟨a, b⟩ := c
    simp only [Memory.read] at h
    split at h
    · subst_vars; cases h; exact List.mem_cons_self
    · exact List.mem_cons_of_mem _ (ih h)

/-- In canonical form a cell is what reading its index gives. -/
theorem Memory.read_of_mem {m : Memory} (h : m.wf) {i : Nat} {v : Byte} (hm : (i, v) ∈ m) : m.read i = some v := by
  induction m with
  | nil => cases hm
  | cons c rest ih =>
    obtain ⟨a, b⟩ := c
    obtain ⟨ha, hr⟩ := List.pairwise_cons.1 h
    rcases List.mem_cons.1 hm with e | hm
    · cases e; simp [Memory.read]
    · have : a < i := ha _ hm
      simp [Memory.read, Nat.ne_of_gt this, ih hr hm]

/-- Two windows in canonical form that read alike everywhere are equal data. -/
theorem Memory.ext_of_read {m n : Memory} (hm : m.wf) (hn : n.wf) (h : ∀ i, m.read i = n.read i) : m = n := by
  refine List.Perm.eq_of_pairwise (le := fun x y : Host.Cell => x.1 < y.1) (fun a b _ _ h1 h2 => ?_) hm hn ?_
  · exact absurd h1 (Nat.lt_asymm h2)
  · refine (List.perm_ext_iff_of_nodup ?_ ?_).2 ?_
    · exact hm.imp (fun h e => by subst e; exact Nat.lt_irrefl _ h)
    · exact hn.imp (fun h e => by subst e; exact Nat.lt_irrefl _ h)
    · rintro ⟨i, v⟩
      exact ⟨fun hc => Memory.mem_of_read ((h i).symm.trans (Memory.read_of_mem hm hc)),
        fun hc => Memory.mem_of_read ((h i).trans (Memory.read_of_mem hn hc))⟩

/-! ### `readBytes` -/

/-- `readBytes` answers bytes exactly when every index is listed, and these are the bytes. -/
theorem Memory.readBytes_bytes {m : Memory} {off n : Nat} {l : List Byte} :
    m.readBytes off n = .bytes l ↔ l.length = n ∧ ∀ k, k < n → m.read (off + k) = l[k]? := by
  induction n generalizing off l with
  | zero =>
    simp only [Memory.readBytes, Fetched.bytes.injEq]
    constructor
    · rintro rfl; simp
    · rintro ⟨h, -⟩; exact (List.length_eq_zero_iff.1 h).symm
  | succ n ih =>
    simp only [Memory.readBytes]
    cases hb : m.read off with
    | none =>
      simp only [reduceCtorEq, false_iff, not_and]
      intro hl h
      have h0 := h 0 (Nat.succ_pos n)
      rw [Nat.add_zero, hb] at h0
      have := (List.getElem?_eq_none_iff.1 h0.symm); omega
    | some b =>
      cases hr : Memory.readBytes m (off + 1) n with
      | unwritten i =>
        simp only [reduceCtorEq, false_iff, not_and]
        intro hl h
        cases l with
        | nil => simp at hl
        | cons c rest =>
          have : Memory.readBytes m (off + 1) n = .bytes rest := ih.2 ⟨by simpa using hl, fun k hk => by
            have := h (k + 1) (by omega)
            rw [show off + (k + 1) = off + 1 + k by omega] at this
            simpa using this⟩
          rw [this] at hr; cases hr
      | bytes r =>
        simp only [Fetched.bytes.injEq]
        have hr' := ih.1 hr
        constructor
        · rintro rfl
          refine ⟨by simp [hr'.1], fun k hk => ?_⟩
          cases k with
          | zero => simpa using hb
          | succ k =>
            have := hr'.2 k (by omega)
            rw [show off + (k + 1) = off + 1 + k by omega]
            simpa using this
        · rintro ⟨hl, h⟩
          cases l with
          | nil => simp at hl
          | cons c rest =>
            have h0 := h 0 (Nat.succ_pos n)
            rw [Nat.add_zero, hb] at h0
            have : Memory.readBytes m (off + 1) n = .bytes rest := ih.2 ⟨by simpa using hl, fun k hk => by
              have := h (k + 1) (by omega)
              rw [show off + (k + 1) = off + 1 + k by omega] at this
              simpa using this⟩
            rw [this] at hr; cases hr
            simp only [List.getElem?_cons_zero, Option.some.injEq] at h0
            rw [h0]

/-- `readBytes` stops at the first index that is not listed. -/
theorem Memory.readBytes_unwritten {m : Memory} {off n i : Nat} :
    m.readBytes off n = .unwritten i ↔
      ∃ k, k < n ∧ i = off + k ∧ m.read (off + k) = none ∧ ∀ j, j < k → m.read (off + j) ≠ none := by
  induction n generalizing off with
  | zero => simp [Memory.readBytes]
  | succ n ih =>
    simp only [Memory.readBytes]
    cases hb : m.read off with
    | none =>
      simp only [Fetched.unwritten.injEq]
      constructor
      · rintro rfl; exact ⟨0, by omega, rfl, hb, by simp⟩
      · rintro ⟨k, hk, rfl, -, h⟩
        cases k with
        | zero => rfl
        | succ k => exact absurd hb (by simpa using h 0 (by omega))
    | some b =>
      have shift : ∀ k, off + (k + 1) = off + 1 + k := by intro k; omega
      have key : m.readBytes (off + 1) n = .unwritten i ↔
          ∃ k, k < n + 1 ∧ i = off + k ∧ m.read (off + k) = none ∧ ∀ j, j < k → m.read (off + j) ≠ none := by
        rw [ih]
        constructor
        · rintro ⟨k, hk, rfl, hn, h⟩
          refine ⟨k + 1, by omega, by omega, by rw [shift]; exact hn, fun j hj => ?_⟩
          cases j with
          | zero => simp [hb]
          | succ j => rw [shift]; exact h j (by omega)
        · rintro ⟨k, hk, rfl, hn, h⟩
          cases k with
          | zero => simp [hb] at hn
          | succ k =>
            refine ⟨k, by omega, by omega, by rw [← shift]; exact hn, fun j hj => ?_⟩
            rw [← shift]; exact h (j + 1) (by omega)
      rw [← key]
      cases hr : Memory.readBytes m (off + 1) n with
      | bytes l => simp
      | unwritten i' => simp

/-- A ready text is what the command reads. -/
theorem State.text_of_ready {s : State} {t : List Byte} (h : s.TextReady t) : s.text = .bytes t :=
  Memory.readBytes_bytes.2 ⟨h.length, h.written⟩

/-- A legal descriptor passes the check. -/
theorem State.srcFits_of_ready {s : State} {t : List Byte} (h : s.TextReady t) : s.srcFits = true := by
  simp [State.srcFits, h.legal]

/-- Reset's IN window is in canonical form. -/
theorem State.reset_inMem_wf : State.reset.inMem.wf := List.Pairwise.nil

end Sys2Proof.Machine
end

