-- ==== Sys2Proof/Laws/Ops.lean ====
section
/-! SUPPORT. One lemma per shared operation that says once everything it can answer; the proofs cite it instead of
unfolding the operation. -/

namespace Sys2Proof.Machine

/-! ### Completing, appending, committing -/

theorem succeed_next {s t : State} : succeed s = .next t ↔ t = s.complete .ok := by
  simp [succeed, eq_comm]

theorem raise_next {e : ErrCode} {s t : State} : raise e s = .next t ↔ t = s.complete e := by
  simp [raise, eq_comm]

theorem room_iff {s : State} {k : Nat} : s.room k = true ↔ s.bitLen + k ≤ 8 * s.cfg.bufBytes := by
  simp [State.room]

theorem srcFits_iff {s : State} : s.srcFits = true ↔ s.srcOff.toNat + s.srcLen.toNat ≤ s.cfg.inBytes := by
  simp [State.srcFits]

/-- With room the bits are appended, else `E_RANGE` and nothing is. -/
theorem appendOrRange_next {b : Bits} {s t : State} (h : appendOrRange b s = .next t) :
    (s.bitLen + b.length ≤ 8 * s.cfg.bufBytes ∧ t = (s.append b).complete .ok) ∨
      (¬ s.bitLen + b.length ≤ 8 * s.cfg.bufBytes ∧ t = s.complete .range) := by
  unfold appendOrRange at h
  split at h
  · exact .inl ⟨room_iff.1 ‹_›, succeed_next.1 h⟩
  · exact .inr ⟨fun hc => ‹¬ _› (room_iff.2 hc), raise_next.1 h⟩

/-- The commit answers a next state on every result. -/
theorem commit_next {r : SegResult} {s t : State} (h : commit r s = .next t) :
    (∃ b, r = .ok b ∧ t = (s.setStream b).complete .ok) ∨ (∃ e, r = .err e ∧ t = (s.setStream []).complete e) := by
  cases r with
  | ok b => exact .inl ⟨b, rfl, succeed_next.1 h⟩
  | err e => exact .inr ⟨e, rfl, by simpa [commit, eq_comm] using h⟩

/-- What an encode command that answers a next state has done: `E_ILLEGAL` from the descriptor, or the commit of a text
read whole. -/
theorem encodeCommand_next {enc : List Byte → SegResult} {s t : State} (h : encodeCommand enc s = .next t) :
    (¬ s.srcOff.toNat + s.srcLen.toNat ≤ s.cfg.inBytes ∧ t = s.complete .illegal) ∨
      (∃ l, s.TextReady l ∧ commit (enc l) s = .next t) := by
  unfold encodeCommand at h
  split at h
  · rename_i hf
    refine .inl ⟨fun hc => ?_, raise_next.1 h⟩
    rw [srcFits_iff.2 hc] at hf; simp at hf
  · rename_i hf
    have hf' : s.srcFits = true := by simpa using hf
    split at h
    · simp at h
    · rename_i l hl
      obtain ⟨h1, h2⟩ := Memory.readBytes_bytes.1 hl
      exact .inr ⟨l, ⟨srcFits_iff.1 hf', h1, h2⟩, h⟩

/-- An encode command on a ready text commits what its encoder makes of it. -/
theorem encodeCommand_ready {enc : List Byte → SegResult} {s : State} {l : List Byte} (h : s.TextReady l) :
    encodeCommand enc s = commit (enc l) s := by
  simp [encodeCommand, State.srcFits_of_ready h, State.text_of_ready h]

/-- The encode commands fault only on an unwritten byte of a legal text. -/
theorem encodeCommand_fault {enc : List Byte → SegResult} {s : State} {f : Fault} (h : encodeCommand enc s = .fault f) :
    s.srcFits = true ∧ ∃ i, s.text = .unwritten i ∧ f = .unwrittenIn i := by
  unfold encodeCommand at h
  split at h
  · simp [raise] at h
  · rename_i hf
    split at h
    · rename_i i hi
      cases h
      exact ⟨by simpa using hf, i, hi, rfl⟩
    · rename_i l hl
      cases hc : enc l <;> simp [commit, succeed, hc] at h

/-! ### The count width -/

theorem versionOk_iff {ver : BitVec 6} : versionOk ver = true ↔ 1 ≤ ver.toNat ∧ ver.toNat ≤ 40 := by
  simp [versionOk]

/-- `CountWidth` is defined exactly on the valid versions. -/
theorem countWidth_eq_none {m : Mode} {ver : BitVec 6} : countWidth m ver = none ↔ versionOk ver = false := by
  cases m <;> simp only [countWidth, byBand] <;> split <;> (try split) <;> (try split) <;> simp_all

/-- A count field has at least 8 and at most 16 bits. -/
theorem countWidth_bounds {m : Mode} {ver : BitVec 6} {w : Nat} (h : countWidth m ver = some w) : 8 ≤ w ∧ w ≤ 16 := by
  cases m <;> simp only [countWidth, byBand] at h <;> (repeat' split at h) <;> simp_all <;> omega

/-! ### `EncodeSeg` -/

/-- A segment: what was checked, and what was built. -/
theorem encodeSeg_ok {p : Params} {m : Mode} {lvl : Level} {ver : BitVec 6} {t : List Byte} {b : Bits} :
    encodeSeg p m lvl ver t = .ok b ↔
      validText m t = true ∧ ∃ w, countWidth m ver = some w ∧ t.length < 2 ^ w ∧
        (segmentData m w t).length ≤ 8 * p.codewords lvl ver.toNat ∧
        b = padTo (segmentData m w t) (8 * p.codewords lvl ver.toNat) := by
  unfold encodeSeg
  cases validText m t <;> simp only [Bool.not_true, Bool.not_false, if_true, Bool.false_eq_true, if_false, false_and,
    true_and, reduceCtorEq]
  cases hw : countWidth m ver with
  | none => simp
  | some w =>
    simp only [Option.some.injEq, exists_eq_left']
    split
    · simp only [reduceCtorEq, false_iff]; omega
    · split
      · simp only [reduceCtorEq, false_iff]; omega
      · simp only [SegResult.ok.injEq]
        constructor
        · rintro rfl; exact ⟨by omega, by omega, rfl⟩
        · rintro ⟨-, -, rfl⟩; rfl

/-- The errors of `EncodeSeg`: charset, version or range (60_exceptions.md R181). -/
theorem encodeSeg_err {p : Params} {m : Mode} {lvl : Level} {ver : BitVec 6} {t : List Byte} {e : ErrCode}
    (h : encodeSeg p m lvl ver t = .err e) : e = .charset ∨ e = .version ∨ e = .range := by
  unfold encodeSeg at h
  repeat' split at h
  all_goals first | exact SegResult.noConfusion h | (cases h; simp)

/-- The selector's result is that of the first mode that succeeds, or `E_NOMODE` when all three fail. -/
theorem encodeBest_cases (p : Params) (lvl : Level) (ver : BitVec 6) (t : List Byte) :
    encodeBest p lvl ver t =
      match encodeSeg p .num lvl ver t, encodeSeg p .aln lvl ver t, encodeSeg p .byt lvl ver t with
      | .ok b, _, _ => .ok b
      | .err _, .ok b, _ => .ok b
      | .err _, .err _, .ok b => .ok b
      | .err _, .err _, .err _ => .err .noMode := by
  simp only [encodeBest, firstThatFits]
  cases encodeSeg p .num lvl ver t <;> cases encodeSeg p .aln lvl ver t <;> cases encodeSeg p .byt lvl ver t <;> rfl

/-! ### Capacity -/

theorem CapTable.entry_eq {t : CapTable} {lvl : Level} {ver : Nat} (h : ver - 1 < 40) :
    t.entry lvl ver = (t.row lvl)[ver - 1] := by
  simp [CapTable.entry, h]

/-- Under the constraints of R7 a data-codeword capacity is at least 1 and fits the buffer. -/
theorem Params.codewords_bounds {p : Params} (h : p.valid = true) (lvl : Level) {ver : Nat} (hv : ver - 1 < 40) :
    1 ≤ p.codewords lvl ver ∧ p.codewords lvl ver ≤ p.bufBytes := by
  have hall : ∀ e ∈ (p.tDC.row lvl).toList, 1 ≤ e.toNat ∧ e.toNat ≤ p.bufBytes := by
    simp only [Params.valid, List.all_cons, List.all_nil, Bool.and_true, Bool.and_eq_true, List.all_eq_true,
      decide_eq_true_eq] at h
    obtain ⟨-, hL, hM, hQ, hH⟩ := h
    cases lvl
    exacts [hL, hM, hQ, hH]
  rw [Params.codewords, CapTable.entry_eq hv]
  exact hall _ (by simp)

theorem Params.sizes {p : Params} (h : p.valid = true) : p.bufBytes ≤ 4096 ∧ 1 ≤ p.inBytes ∧ p.inBytes ≤ 4096 := by
  simp only [Params.valid, Bool.and_eq_true, decide_eq_true_eq] at h
  exact ⟨h.1.1.1, h.1.1.2, h.1.2⟩

/-! ### The host's side -/

/-- A read of a legal shape answers with its data and changes nothing of the core; any other faults. -/
theorem hostRead_cases (off : BitVec 14) (width : Width) (s : State) :
    hostRead off width s = .next (s.setLastRead (s.readData off.toNat width)) ∧ legalShape off width = true ∨
      hostRead off width s = .fault (.accessShape off.toNat width) ∧ legalShape off width = false := by
  unfold hostRead
  cases h : legalShape off width <;> simp

theorem unlessBusy_next {f : Fault} {s t u : State} (h : unlessBusy f s t = .next u) : s.busy = false ∧ u = t := by
  unfold unlessBusy at h
  split at h
  · simp at h
  · rename_i hb
    exact ⟨by simpa using hb, by simpa [eq_comm] using h⟩

/-- Everything a write that answers a next state can have done: accepted a command, set one operand register or one IN
byte, each while idle, or nothing. -/
theorem hostWrite_next {off : BitVec 14} {d : RData} {s t : State} (h : hostWrite off d s = .next t) :
    (s.busy = false ∧ ((∃ w, t = s.accept w) ∨ (∃ v, t = s.setSrcOff v) ∨ (∃ v, t = s.setSrcLen v) ∨
      (∃ i b, i < s.cfg.inBytes ∧ t = s.setIn i b))) ∨ t = s := by
  cases d with
  | b16 v => simp [hostWrite] at h
  | b32 w =>
    simp only [hostWrite] at h
    split at h
    · unfold writeWord at h
      split at h
      · obtain ⟨hb, rfl⟩ := unlessBusy_next h; exact .inl ⟨hb, .inl ⟨_, rfl⟩⟩
      · obtain ⟨hb, rfl⟩ := unlessBusy_next h; exact .inl ⟨hb, .inr (.inl ⟨_, rfl⟩)⟩
      · obtain ⟨hb, rfl⟩ := unlessBusy_next h; exact .inl ⟨hb, .inr (.inr (.inl ⟨_, rfl⟩))⟩
      all_goals exact .inr (by simpa [eq_comm] using h)
    · simp at h
  | b8 b =>
    simp only [hostWrite] at h
    split at h
    · unfold writeByte at h
      split at h
      · rename_i i hi
        obtain ⟨hb, rfl⟩ := unlessBusy_next h
        refine .inl ⟨hb, .inr (.inr (.inr ⟨i, b, ?_, rfl⟩))⟩
        unfold windowAt at hi
        split at hi
        · simp only [WinLoc.inByte.injEq] at hi; omega
        · split at hi <;> simp at hi
      all_goals exact .inr (by simpa [eq_comm] using h)
    · simp at h

/-! ### Turns -/

/-- Everything a step that answers a next state can have been: the host's access, the core running its pending word, an
idle turn, or a reset, on the state with its turn taken off the list. -/
theorem nextTurn_next {s t : State} (h : nextTurn s = .next t) :
    ∃ u : State, (u = s ∨ ∃ rest, u = s.setTurns rest) ∧
      ((∃ a, hostAccess a u = .next t) ∨ (∃ w, u.pend = some w ∧ runWord w u = .next t) ∨
        (u.pend = none ∧ t = u) ∨ t = u.applyReset) := by
  have core : ∀ u : State, coreTurn u = .next t →
      (∃ w, u.pend = some w ∧ runWord w u = .next t) ∨ (u.pend = none ∧ t = u) := by
    intro u hu
    unfold coreTurn at hu
    split at hu
    · exact .inl ⟨_, ‹_›, hu⟩
    · exact .inr ⟨‹_›, by simpa [eq_comm] using hu⟩
  unfold nextTurn at h
  split at h
  · refine ⟨s, .inl rfl, ?_⟩
    rcases core s h with h | h
    · exact .inr (.inl h)
    · exact .inr (.inr (.inl h))
  · rename_i tn rest hs
    refine ⟨s.setTurns rest, .inr ⟨rest, rfl⟩, ?_⟩
    cases tn with
    | host a => exact .inl ⟨a, h⟩
    | core =>
      rcases core _ h with h | h
      · exact .inr (.inl h)
      · exact .inr (.inr (.inl h))
    | reset => exact .inr (.inr (.inr (by simpa [takeTurn, eq_comm] using h)))

/-- A run goes on from the state its first step answers. -/
theorem run_next {s t : State} {k : Nat} (h : step s = .next t) :
    Host.Core.run Sys2Proof.core (k + 1) s = Host.Core.run Sys2Proof.core k t := by
  simp only [Host.Core.run, Sys2Proof.core, h]

/-- Running a word is the decoded command's meaning, or `E_ILLEGAL` and nothing else. -/
theorem runWord_cases (w : Word) (s : State) :
    (∃ i, decode w = .ok i ∧ runWord w s = exec i s) ∨
      (∃ why, decode w = .illegal why ∧ runWord w s = .next (s.complete .illegal)) := by
  unfold runWord
  cases h : decode w with
  | ok i => exact .inl ⟨i, rfl, rfl⟩
  | illegal why => exact .inr ⟨why, rfl, rfl⟩

end Sys2Proof.Machine
end

