-- ==== Sys2Proof/Laws/PerInstr.lean ====
section
/-! SUPPORT. Per instruction: the encoded word stands in the instruction's own row of the opcode map
(30_encoding.md R77). -/

namespace Sys2Proof.Laws.EncodedInRow

/-- The opcode-map row of an instruction. -/
def opOf : Instr → Op
  | .clr => .clr
  | .apb _ _ => .apb
  | .apr _ => .apr
  | .ecnt _ _ _ => .ecnt
  | .pad _ => .pad
  | .enum _ _ => .enum
  | .ealn _ _ => .ealn
  | .ebyt _ _ => .ebyt
  | .ebest _ _ => .ebest
  | .capq _ _ _ => .capq

/-- The word of `i` has `i`'s opcode and every reserved bit of its format 0: it hits the row of its own opcode. -/
def Statement (i : Instr) : Prop := ∃ r ∈ rows, r.op = opOf i ∧ r.hits (encode i) = true

/-- Two words are equal when their 32 bits are. -/
theorem word_eq {a b : Word} (h : ∀ k, k < 32 → a.getLsbD k = b.getLsbD k) : a = b :=
  BitVec.eq_of_getLsbD_eq h

theorem clr : Statement .clr := ⟨⟨.clr, 0x10000000#32, 0xFFFFFFFF#32⟩, by simp [rows], rfl, by decide⟩

theorem apb (cnt : BitVec 5) (val : Half) : Statement (.apb cnt val) := by
  refine ⟨⟨.apb, 0x20000000#32, 0xFFE00000#32⟩, by simp [rows], rfl, ?_⟩
  simp only [Row.hits, beq_iff_eq, encode, place]
  refine word_eq fun k hk => ?_
  interval_cases k <;> simp

theorem apr (nbits : Half) : Statement (.apr nbits) := by
  refine ⟨⟨.apr, 0x30000000#32, 0xFFFF0000#32⟩, by simp [rows], rfl, ?_⟩
  simp only [Row.hits, beq_iff_eq, encode, place]
  refine word_eq fun k hk => ?_
  interval_cases k <;> simp

theorem ecnt (mode : Mode) (ver : BitVec 6) (count : Half) : Statement (.ecnt mode ver count) := by
  refine ⟨⟨.ecnt, 0x40000000#32, 0xF3C00000#32⟩, by simp [rows], rfl, ?_⟩
  simp only [Row.hits, beq_iff_eq, encode, place]
  refine word_eq fun k hk => ?_
  interval_cases k <;> simp

theorem pad (tgt : Half) : Statement (.pad tgt) := by
  refine ⟨⟨.pad, 0x50000000#32, 0xFFFF0000#32⟩, by simp [rows], rfl, ?_⟩
  simp only [Row.hits, beq_iff_eq, encode, place]
  refine word_eq fun k hk => ?_
  interval_cases k <;> simp

theorem enum (lvl : Level) (ver : BitVec 6) : Statement (.enum lvl ver) := by
  refine ⟨⟨.enum, 0x60000000#32, 0xFCC0FFFF#32⟩, by simp [rows], rfl, ?_⟩
  simp only [Row.hits, beq_iff_eq, encode, encodeE, place]
  refine word_eq fun k hk => ?_
  interval_cases k <;> simp

theorem ealn (lvl : Level) (ver : BitVec 6) : Statement (.ealn lvl ver) := by
  refine ⟨⟨.ealn, 0x70000000#32, 0xFCC0FFFF#32⟩, by simp [rows], rfl, ?_⟩
  simp only [Row.hits, beq_iff_eq, encode, encodeE, place]
  refine word_eq fun k hk => ?_
  interval_cases k <;> simp

theorem ebyt (lvl : Level) (ver : BitVec 6) : Statement (.ebyt lvl ver) := by
  refine ⟨⟨.ebyt, 0x80000000#32, 0xFCC0FFFF#32⟩, by simp [rows], rfl, ?_⟩
  simp only [Row.hits, beq_iff_eq, encode, encodeE, place]
  refine word_eq fun k hk => ?_
  interval_cases k <;> simp

theorem ebest (lvl : Level) (ver : BitVec 6) : Statement (.ebest lvl ver) := by
  refine ⟨⟨.ebest, 0x90000000#32, 0xFCC0FFFF#32⟩, by simp [rows], rfl, ?_⟩
  simp only [Row.hits, beq_iff_eq, encode, encodeE, place]
  refine word_eq fun k hk => ?_
  interval_cases k <;> simp

theorem capq (tbl : TblSel) (lvl : Level) (ver : BitVec 6) : Statement (.capq tbl lvl ver) := by
  refine ⟨⟨.capq, 0xA0000000#32, 0xFCC0FFF8#32⟩, by simp [rows], rfl, ?_⟩
  simp only [Row.hits, beq_iff_eq, encode, place]
  refine word_eq fun k hk => ?_
  interval_cases k <;> simp

end Sys2Proof.Laws.EncodedInRow
end

