-- ==== Sys2Proof/Tests/Slice0.lean ====
section
/-! SUPPORT. The model's own tests: the well-formedness smoke test, decoding of words written out from the spec, one-step
tests with the results of 95_test_vectors.md, and a witness for the hypotheses of every statement. -/

namespace Sys2Proof.Tests

open Sys2Proof Sys2Proof.Machine

/-! ### Well-formedness and decoding -/

/-- 30_encoding.md R72: `CNT` is 0..16. -/
theorem test_wf_cnt : Instr.wf (.apb 17#5 0x0000#16) = false ∧ Instr.wf (.apb 31#5 0x0000#16) = false ∧
    Instr.wf (.apb 16#5 0x0000#16) = true := by decide

/-! Words of 95_test_vectors.md, split into the fields of 30_encoding.md R71. -/

/-- B13: `0001` and 28 zeros. -/
theorem test_decode_clr : decode 0b0001_0000000000000000000000000000#32 = .ok .clr := by decide
/-- B2: `0010 0000000 00110 1111111111111111`. -/
theorem test_decode_apb : decode 0b0010_0000000_00110_1111111111111111#32 = .ok (.apb 6#5 0xFFFF#16) := by decide
/-- B15: `0011 000000000000 0000000000001100`. -/
theorem test_decode_apr : decode 0b0011_000000000000_0000000000001100#32 = .ok (.apr 12#16) := by decide
/-- K9: `0100 10 0000 001001 0000000011111111`. -/
theorem test_decode_ecnt : decode 0b0100_10_0000_001001_0000000011111111#32 = .ok (.ecnt .byt 9#6 255#16) := by decide
/-- P13: `0101 000000000000 0000000000000011`. -/
theorem test_decode_pad : decode 0b0101_000000000000_0000000000000011#32 = .ok (.pad 3#16) := by decide
/-- V11e: `0110 00 11 00 101000 0000000000000000`. -/
theorem test_decode_enum : decode 0b0110_00_11_00_101000_0000000000000000#32 = .ok (.enum .H 40#6) := by decide
/-- V14c: `0111 00 10 00 000001 0000000000000000`. -/
theorem test_decode_ealn : decode 0b0111_00_10_00_000001_0000000000000000#32 = .ok (.ealn .Q 1#6) := by decide
/-- V11d: `1000 00 00 00 001010 0000000000000000`. -/
theorem test_decode_ebyt : decode 0b1000_00_00_00_001010_0000000000000000#32 = .ok (.ebyt .L 10#6) := by decide
/-- S7: `1001 00 10 00 000001 0000000000000000`. -/
theorem test_decode_ebest : decode 0b1001_00_10_00_000001_0000000000000000#32 = .ok (.ebest .Q 1#6) := by decide
/-- Q-7: `1010 00 10 00 011011 0000000000000 100`. -/
theorem test_decode_capq : decode 0b1010_00_10_00_011011_0000000000000_100#32 = .ok (.capq .kan .Q 27#6) := by decide

/-- The illegal words of 95_test_vectors.md section 2.9 and rows B7, B8, B14, K14, K17, P16, Q-6, Q-8, V12-17. -/
theorem test_decode_illegal :
    decode 0x00000000#32 = .illegal .reservedOpcode ∧ decode 0xB0000000#32 = .illegal .reservedOpcode ∧
    decode 0xF0000000#32 = .illegal .reservedOpcode ∧ decode 0x10000001#32 = .illegal .reservedBit ∧
    decode 0x20110000#32 = .illegal .cntOver16 ∧ decode 0x20200000#32 = .illegal .reservedBit ∧
    decode 0x4C010000#32 = .illegal .mode3 ∧ decode 0x40410007#32 = .illegal .reservedBit ∧
    decode 0x50010000#32 = .illegal .reservedBit ∧ decode 0x64010000#32 = .illegal .reservedBit ∧
    decode 0x61810000#32 = .illegal .reservedBit ∧ decode 0x60010001#32 = .illegal .reservedBit ∧
    decode 0xA0010005#32 = .illegal .tblOver4 ∧ decode 0xA0010008#32 = .illegal .reservedBit := by decide

/-! ### Helpers -/

/-- The IN window with `l` written from byte `i` on. -/
def cells : Nat → List Byte → Memory
  | _, [] => []
  | i, b :: rest => (i, b) :: cells (i + 1) rest

/-- Reset with stream `b`, the text `l` at IN byte 0 and the descriptor `off`, `len`. -/
def start (b : Bits) (off len : Half) (l : List Byte) : State :=
  { State.reset with stream := b, srcOff := off, srcLen := len, inMem := cells 0 l }

/-- Reset with the whole of `l` as its text. -/
def texted (l : List Byte) : State := start [true, false, true] 0#16 (BitVec.ofNat 16 l.length) l

/-- The smallest machine: a buffer of 2 bytes, every capacity 1 codeword. -/
def tinyParams : Params :=
  let row : Vector Half 40 := Vector.replicate 40 1#16
  let t : CapTable := ⟨row, row, row, row⟩
  ⟨2, 3, t, t, t, t, t⟩

/-- The smallest machine with stream `b` and no IN byte written. -/
def tiny (b : Bits) : State := { State.reset with cfg := tinyParams, stream := b }

/-- `o` is a next state that meets `p`. -/
def nextHas (o : Outcome) (p : State → Bool) : Bool :=
  match o with
  | .next t => p t
  | .fault _ => false
  | .refused _ => false

/-- What `nextHas` says. -/
theorem nextHas_iff {o : Outcome} {p : State → Bool} : nextHas o p = true ↔ ∃ t, o = .next t ∧ p t = true := by
  cases o <;> simp [nextHas]

/-- The OUT bytes 0 .. `OUTLEN` - 1. -/
def outBytes (s : State) : List Nat := (List.range s.outLen).map fun k => (s.bufByte k).toNat

/-- `o` is a completed command with result `e`, `n` stream bits and the OUT bytes `l`. -/
def ends (o : Outcome) (e : ErrCode) (n : Nat) (l : List Nat) : Bool :=
  nextHas o fun t => t.err == e && t.bitLen == n && outBytes t == l && t.pend == none

def isFault (o : Outcome) (f : Fault) : Bool :=
  match o with
  | .next _ => false
  | .fault g => g == f
  | .refused _ => false

/-- `12345`. -/
def digits : List Byte := [0x31, 0x32, 0x33, 0x34, 0x35]

/-- `MoNeY!!!$$$`. -/
def money : List Byte := [0x4D, 0x6F, 0x4E, 0x65, 0x59, 0x21, 0x21, 0x21, 0x24, 0x24, 0x24]

/-! ### One step of each command, with the results of 95_test_vectors.md -/

/-- B13 (with 12 bits). -/
theorem test_clr : ends (exec .clr (start (bits 12 0x486) 7#16 9#16 [])) .ok 0 [] = true := by decide

/-- B2: a straddle. -/
theorem test_apb_straddles :
    ends (exec (.apb 6#5 0xFFFF#16) (start (bits 4 0xA) 0#16 0#16 [])) .ok 10 [0xAF, 0xC0] = true := by decide

/-- B12's shape on the smallest machine: no room. -/
theorem test_apb_full :
    ends (exec (.apb 1#5 0x8000#16) (tiny (bits 16 0x1234))) .range 16 [0x12, 0x34] = true := by decide

/-- B16. -/
theorem test_apr : ends (exec (.apr 12#16) (start (bits 4 0xF) 0#16 2#16 [0xA5, 0x3C])) .ok 16 [0xFA, 0x53] = true := by
  decide

/-- B22. -/
theorem test_apr_unwritten : isFault (exec (.apr 16#16) (start [] 0#16 3#16 [0xA5])) (.unwrittenIn 1) = true := by decide

/-- K18. -/
theorem test_ecnt : ends (exec (.ecnt .num 1#6 7#16) (start (bits 4 1) 0#16 0#16 [])) .ok 14 [0x10, 0x1C] = true := by
  decide

/-- K10. -/
theorem test_ecnt_too_wide : ends (exec (.ecnt .byt 9#6 256#16) (start [] 0#16 0#16 [])) .range 0 [] = true := by decide

/-- P2. -/
theorem test_pad :
    ends (exec (.pad 19#16) (start (List.replicate 5 true) 0#16 0#16 [])) .ok 152
      [0xF8, 0x00, 0xEC, 0x11, 0xEC, 0x11, 0xEC, 0x11, 0xEC, 0x11, 0xEC, 0x11, 0xEC, 0x11, 0xEC, 0x11, 0xEC, 0x11,
       0xEC] = true := by decide +kernel

/-- P15. -/
theorem test_pad_over_target :
    ends (exec (.pad 2#16) (start (bits 24 0x4860EC) 0#16 0#16 [])) .range 24 [0x48, 0x60, 0xEC] = true := by decide

/-- V9: `01234567`, whose group `012` has 7 bits. -/
theorem test_enum_leading_zero :
    ends (exec (.enum .L 1#6) (texted [0x30, 0x31, 0x32, 0x33, 0x34, 0x35, 0x36, 0x37])) .ok 152
      [0x10, 0x20, 0x62, 0xB3, 0x0C, 0x00, 0xEC, 0x11, 0xEC, 0x11, 0xEC, 0x11, 0xEC, 0x11, 0xEC, 0x11, 0xEC, 0x11,
       0xEC] = true := by decide +kernel

/-- V12-6: charset before version. -/
theorem test_enum_charset_first : ends (exec (.enum .L 0#6) (texted [0x61, 0x62, 0x63])) .charset 0 [] = true := by decide

/-- V2: `HELLO WORLD`. -/
theorem test_ealn :
    ends (exec (.ealn .L 1#6) (texted [0x48, 0x45, 0x4C, 0x4C, 0x4F, 0x20, 0x57, 0x4F, 0x52, 0x4C, 0x44])) .ok 152
      [0x20, 0x5B, 0x0B, 0x78, 0xD1, 0x72, 0xDC, 0x4D, 0x43, 0x40, 0xEC, 0x11, 0xEC, 0x11, 0xEC, 0x11, 0xEC, 0x11,
       0xEC] = true := by decide +kernel

/-- V12-10: over capacity. -/
theorem test_ealn_over_capacity :
    ends (exec (.ealn .Q 1#6) (texted [0x41, 0x42, 0x43, 0x44, 0x45, 0x46, 0x47, 0x48, 0x49, 0x4A, 0x4B, 0x4C, 0x4D,
      0x4E, 0x4F, 0x50, 0x51])) .range 0 [] = true := by decide +kernel

/-- V13c: bytes 0x00 and 0xFF. -/
theorem test_ebyt :
    ends (exec (.ebyt .L 1#6) (texted [0x00, 0xFF])) .ok 152
      [0x40, 0x20, 0x0F, 0xF0, 0xEC, 0x11, 0xEC, 0x11, 0xEC, 0x11, 0xEC, 0x11, 0xEC, 0x11, 0xEC, 0x11, 0xEC, 0x11,
       0xEC] = true := by decide +kernel

/-- V12-7. -/
theorem test_ebyt_version : ends (exec (.ebyt .L 41#6) (texted money)) .version 0 [] = true := by decide

/-- S3, V5. -/
theorem test_ebest :
    ends (exec (.ebest .L 1#6) (texted money)) .ok 152
      [0x40, 0xB4, 0xD6, 0xF4, 0xE6, 0x55, 0x92, 0x12, 0x12, 0x12, 0x42, 0x42, 0x40, 0xEC, 0x11, 0xEC, 0x11, 0xEC,
       0x11] = true := by decide +kernel

/-- S7. -/
theorem test_ebest_no_mode :
    ends (exec (.ebest .Q 1#6) (texted (List.replicate 18 0x41))) .noMode 0 [] = true := by decide +kernel

/-- Q-2. -/
theorem test_capq : nextHas (exec (.capq .dc .H 40#6) State.reset) (fun t => t.capVal == 1276#16 && t.err == .ok) = true := by
  decide

/-- Q-4. -/
theorem test_capq_version :
    nextHas (exec (.capq .dc .M 0#6) { State.reset with capVal := 19 }) (fun t => t.capVal == 19 && t.err == .version) = true := by
  decide

/-! ### Host accesses -/

/-- R-2: `INFO` after reset. -/
theorem test_info : State.reset.Reads 0x01C#14 .w32 (.b32 0x10001000#32) := rfl

/-- R-5: a write of 0x12345 to `SRC_OFF`. -/
theorem test_src_off :
    nextHas (hostAccess (.write 0x010#14 (.b32 0x12345#32)) State.reset) (fun t => t.readReg .srcOff == 0x2345#32) = true := by
  decide

/-- R-6: unmapped offsets. -/
theorem test_unmapped : State.reset.Reads 0x0FFC#14 .w32 (.b32 0) ∧ State.reset.Reads 0x3FFF#14 .w8 (.b8 0) := by
  constructor <;> rfl

/-- R-7, R-8: access shapes. -/
theorem test_shapes :
    isFault (hostAccess (.read 0x004#14 .w8) State.reset) (.accessShape 0x004 .w8) = true ∧
    isFault (hostAccess (.read 0x1000#14 .w32) State.reset) (.accessShape 0x1000 .w32) = true := by decide

/-- R-9 to R-11: `ENUM L, 1` accepted; `STATUS` reads busy with `ERR` 0; a second `CMD` write and an operand write fault. -/
theorem test_busy :
    let s := { start (bits 12 0x486) 0#16 0#16 [] with pend := some 0x60010000#32 }
    s.Reads 0x004#14 .w32 (.b32 0x80000000#32) ∧ s.Reads 0x008#14 .w32 (.b32 12) ∧
    isFault (hostAccess (.write 0x000#14 (.b32 0)) s) .cmdWhileBusy = true ∧
    isFault (hostAccess (.write 0x014#14 (.b32 0)) s) (.operandWriteWhileBusy 0x014) = true :=
  ⟨rfl, rfl, by decide, by decide⟩

/-- 30_encoding.md R83: `SRC 1, 2` is two 32-bit writes in this order, and a text is 8-bit writes from its first byte. -/
theorem test_directives :
    Line.turns State.reset (.src 1#16 2#16) =
      some [.host (.write 0x010#14 (.b32 1)), .host (.write 0x014#14 (.b32 2))] ∧
    Line.turns State.reset (.text 3 [0x41, 0x42]) =
      some [.host (.write 0x1003#14 (.b8 0x41)), .host (.write 0x1004#14 (.b8 0x42))] ∧
    Line.turns State.reset (.cmd .clr) =
      some [.host (.write 0x000#14 (.b32 0x10000000)), .core, .host (.read 0x004#14 .w32)] := by decide

/-! ### Witnesses: concrete states and operands that meet the hypotheses of each statement, one per clause -/

/-- A busy state: `PEND` holds `CLR`, or the illegal word 0. -/
def busyWith (w : Word) (turns : List Turn) : State := { State.reset with pend := some w, turns := turns }

/-- The invariant at a state with a stream, a written window and a pending command. -/
theorem inv_of {s : State} (hc : s.cfg = Params.default) (hf : s.bitLen ≤ 8 * 4096) (hm : s.inMem.wf)
    (hw : s.inMem.within 4096) (he : s.err = .ok) : s.Inv :=
  ⟨by rw [hc]; decide +kernel, by rw [hc]; exact hf, hm, by rw [hc]; exact hw, fun _ => he⟩

theorem witness_EncodeThenDecodeGivesTheCommand : Instr.wf (.apb 16#5 0xFFFF#16) = true := by decide

theorem witness_DecodedWordIsTheCommandsWord : decode 0xA3280004#32 = .ok (.capq .kan .H 40#6) := by decide

/-- The boundary words of the illegal ranges, and the second clause's pending word. -/
theorem witness_IllegalWordsAreExactlyThoseOfTheSpec :
    IllegalWord 0x0FFFFFFF#32 ∧ IllegalWord 0xB0000000#32 ∧ IllegalWord 0x20110000#32 ∧ ¬ IllegalWord 0x20100000#32 ∧
    IllegalWord 0x4C000000#32 ∧ ¬ IllegalWord 0x48000000#32 ∧ IllegalWord 0xA0000005#32 ∧ ¬ IllegalWord 0xA0000004#32 ∧
    (busyWith 0#32 []).pend = some 0#32 ∧ IllegalWord 0#32 :=
  ⟨by unfold IllegalWord; decide, by unfold IllegalWord; decide, by unfold IllegalWord; decide,
    by unfold IllegalWord; decide, by unfold IllegalWord; decide, by unfold IllegalWord; decide,
    by unfold IllegalWord; decide, by unfold IllegalWord; decide, rfl,
    by unfold IllegalWord; decide⟩

theorem witness_StepRunsThePendingCommand :
    (busyWith 0x10000000#32 []).pend = some 0x10000000#32 ∧ decode 0x10000000#32 = .ok .clr ∧
    (busyWith 0x10000000#32 []).turns = [] ∧ (busyWith 0x10000000#32 [.core]).turns = .core :: [] := by decide

theorem witness_StepTakesTheNextTurn :
    (busyWith 0#32 [.host (.read 4#14 .w32)]).turns = .host (.read 4#14 .w32) :: [] ∧
    (busyWith 0#32 [.reset]).turns = .reset :: [] ∧ State.reset.turns = [] ∧ State.reset.pend = none := by decide

theorem witness_PollingSeesTheStateBeforeTheCommand :
    let s := busyWith 0x10000000#32 [.host (.read 4#14 .w32), .host (.read 0x2000#14 .w8)]
    s.pend = some 0x10000000#32 ∧ decode 0x10000000#32 = .ok .clr ∧ (∀ t ∈ s.turns, t.legalRead = true) ∧
    s.turns[0]? = some (.host (.read 4#14 .w32)) ∧ s.turns[1]? = some (.host (.read 0x2000#14 .w8)) ∧ s.Inv :=
  ⟨by decide, by decide, by decide, by decide, by decide, inv_of rfl (by decide) (by decide) (by decide) rfl⟩

/-- V12-16 and B22: both sides of the first two clauses; the third; the first and last byte of the IN window. -/
theorem witness_UnwrittenInputBytesFault :
    isEncode (.enum .L 1#6) = true ∧
    isFault (exec (.enum .L 1#6) (start [] 0#16 2#16 [0x31])) (.unwrittenIn 1) = true ∧
    (start [] 0#16 2#16 [0x31]).FirstUnwritten 2 1 ∧
    isFault (exec (.apr 16#16) (start [] 0#16 3#16 [0xA5])) (.unwrittenIn 1) = true ∧
    (start [] 0#16 3#16 [0xA5]).FirstUnwritten 2 1 ∧
    0x1000 ≤ (0x1000#14).toNat ∧ (0x1FFF#14).toNat < 0x1000 + State.reset.cfg.inBytes :=
  ⟨by decide, by decide, ⟨1, by decide, by decide, by decide, by decide⟩, by decide,
    ⟨1, by decide, by decide, by decide, by decide⟩, by decide, by decide⟩

theorem witness_EveryStepKeepsTheInvariant :
    let s := (texted digits).accept 0x60010000#32
    s.Inv ∧ nextHas (step s) (fun t => t.bitLen == 152) = true :=
  ⟨inv_of rfl (by decide) (by decide) (by decide) rfl, by decide +kernel⟩

/-- Legal parameters at their default and smallest; a step that answers a next state, and R-2's read before it. -/
theorem witness_InfoAndTablesNeverChange :
    (texted digits).cfg.valid = true ∧ (tiny []).cfg.valid = true ∧
    nextHas (step (texted digits)) (fun t => t.bitLen == 3) = true ∧
    (texted digits).Reads 0x01C#14 .w32 (.b32 0x10001000#32) :=
  ⟨by decide +kernel, by decide +kernel, by decide, rfl⟩

/-- Both cases of the frame: `CAPQ`, and a command that is not. -/
theorem witness_CommandsLeaveTheRestUnchanged :
    nextHas (exec (.apb 4#5 0xA000#16) State.reset) (fun t => t.bitLen == 4) = true ∧
    isCapq (.apb 4#5 0xA000#16) = false ∧
    nextHas (exec (.capq .dc .L 1#6) State.reset) (fun t => t.capVal == 19#16) = true ∧
    isCapq (.capq .dc .L 1#6) = true := by decide

/-- One command for each clause, and a host access. -/
theorem witness_StreamChangesOnlyAsTheSpecSays :
    isAppend (.apb 4#5 0xA000#16) = true ∧ nextHas (exec (.apb 4#5 0xA000#16) State.reset) (fun _ => true) = true ∧
    nextHas (exec .clr State.reset) (fun _ => true) = true ∧
    nextHas (exec (.capq .dc .L 1#6) State.reset) (fun _ => true) = true ∧
    nextHas (exec (.enum .L 1#6) (start [] 1#16 4096#16 [])) (fun t => t.err == .illegal) = true ∧
    nextHas (exec (.enum .L 41#6) (texted digits)) (fun t => t.err == .version) = true ∧
    nextHas (exec (.enum .L 1#6) (texted digits)) (fun t => t.err == .ok) = true ∧
    nextHas (hostAccess (.write 0x1000#14 (.b8 0x31)) State.reset) (fun t => t.inMem == [(0, 0x31)]) = true := by
  decide +kernel

/-- A low-level error, `E_ILLEGAL` of an encode command (V12-14), and an illegal word. -/
theorem witness_LowLevelErrorsChangeNothingElse :
    nextHas (exec (.pad 4097#16) State.reset) (fun t => t.err == .range) = true ∧ isEncode (.pad 4097#16) = false ∧
    nextHas (exec (.enum .L 1#6) (start [] 1#16 4096#16 [])) (fun t => t.err == .illegal) = true ∧
    (busyWith 0#32 []).pend = some 0#32 ∧ decode 0#32 = .illegal .reservedOpcode := by decide

theorem witness_FailedEncodeLeavesNoOutput :
    isEncode (.ebest .Q 41#6) = true ∧
    nextHas (exec (.ebest .Q 41#6) (texted digits)) (fun t => t.err == .noMode) = true ∧
    (texted digits).srcOff.toNat + (texted digits).srcLen.toNat ≤ (texted digits).cfg.inBytes := by decide

theorem witness_EachCommandRaisesOnlyItsErrors :
    nextHas (exec (.enum .L 1#6) (texted money)) (fun t => t.err == .charset) = true := by decide

theorem witness_CommandsDoNotReadEarlierResults :
    isCapq (.apb 4#5 0xA000#16) = false ∧
    nextHas (exec (.apb 4#5 0xA000#16) State.reset) (fun t => t.bitLen == 4) = true := by decide

/-- `APR 8` of three source bytes reads the first alone (B21): two windows that differ in the others. -/
theorem witness_OnlyTheBytesReadMatter :
    let s := start [] 0#16 3#16 [0xA5]
    ∀ k, k < s.srcLen.toNat → (∀ n : Half, Instr.apr 8#16 = .apr n → k < (n.toNat + 7) / 8) →
      (cells 0 [0xA5, 0x11, 0x22]).read (s.srcOff.toNat + k) = s.inMem.read (s.srcOff.toNat + k) := by
  intro s k hk h
  have h8 : k < 1 := h 8#16 rfl
  have h0 : k = 0 := by omega
  subst h0
  decide

theorem witness_BufferIsTheByteViewOfTheStream : (0 : Nat) ≤ 7 ∧ (7 : Nat) ≤ 7 := by decide

theorem witness_AppendsKeepTheEarlierBits :
    isAppend (.apb 6#5 0xFFFF#16) = true ∧
    nextHas (exec (.apb 6#5 0xFFFF#16) (start (bits 4 0xA) 0#16 0#16 [])) (fun t => t.bitLen == 10) = true := by decide

/-- The widest field with its largest value. -/
theorem witness_AppendedValueReadsBack :
    (start (bits 4 0xA) 0#16 0#16 []).Inv ∧ 16 ≤ 16 ∧ 0xFFFF < 2 ^ 16 ∧
    nextHas (exec (.apb (BitVec.ofNat 5 16) (BitVec.ofNat 16 (0xFFFF <<< (16 - 16)))) (start (bits 4 0xA) 0#16 0#16 []))
      (fun t => t.err == .ok) = true :=
  ⟨inv_of rfl (by decide) (by decide) (by decide) rfl, by decide, by decide, by decide⟩

/-- The last `CNT` that is legal and fits, the first that is illegal, and one bit too many, on the smallest machine. -/
theorem witness_ApbAppendsTheTopBits :
    (16#5).toNat ≤ 16 ∧ (tiny []).bitLen + (16#5).toNat ≤ 8 * (tiny []).cfg.bufBytes ∧ 16 < (17#5).toNat ∧
    8 * (tiny [true]).cfg.bufBytes < (tiny [true]).bitLen + (16#5).toNat := by decide

/-- B16's operands meet the five hypotheses. -/
theorem witness_AprAppendsTheSourceBits :
    let s := start (bits 4 0xF) 0#16 2#16 [0xA5, 0x3C]
    let d : List Byte := [0xA5, 0x3C]
    s.srcOff.toNat + s.srcLen.toNat ≤ s.cfg.inBytes ∧ (12#16).toNat ≤ 8 * s.srcLen.toNat ∧
    s.bitLen + (12#16).toNat ≤ 8 * s.cfg.bufBytes ∧ d.length = ((12#16).toNat + 7) / 8 ∧
    ∀ k, k < d.length → s.inMem.read (s.srcOff.toNat + k) = d[k]? := by decide

/-- B20, B17, and no room on the smallest machine. -/
theorem witness_AprErrors :
    (start [] 4095#16 2#16 []).cfg.inBytes < (start [] 4095#16 2#16 []).srcOff.toNat + (start [] 4095#16 2#16 []).srcLen.toNat ∧
    (start [] 0#16 2#16 []).srcOff.toNat + (start [] 0#16 2#16 []).srcLen.toNat ≤ (start [] 0#16 2#16 []).cfg.inBytes ∧
    8 * (start [] 0#16 2#16 []).srcLen.toNat < (17#16).toNat ∧
    (tiny [true]).srcOff.toNat + (tiny [true]).srcLen.toNat ≤ (tiny [true]).cfg.inBytes ∧
    8 * (tiny [true]).cfg.bufBytes < (tiny [true]).bitLen + (16#16).toNat := by decide

/-- The first and last version of each band, and the two nearest outside. -/
theorem witness_CountWidthTable :
    1 ≤ (1#6).toNat ∧ (9#6).toNat ≤ 9 ∧ 10 ≤ (10#6).toNat ∧ (26#6).toNat ≤ 26 ∧ 27 ≤ (27#6).toNat ∧ (40#6).toNat ≤ 40 ∧
    (0#6).toNat = 0 ∧ 41 ≤ (41#6).toNat := by decide

/-- K5, K6, K15, K16 and no room on the smallest machine. -/
theorem witness_EcntAppendsTheCount :
    countWidth .aln 1#6 = some 9 ∧ (511#16).toNat < 2 ^ 9 ∧ State.reset.bitLen + 9 ≤ 8 * State.reset.cfg.bufBytes ∧
    (0#6).toNat = 0 ∧ 41 ≤ (41#6).toNat ∧ 2 ^ 9 ≤ (512#16).toNat ∧
    8 * (tiny (bits 8 0)).cfg.bufBytes < (tiny (bits 8 0)).bitLen + 9 := by decide

/-- P8, P9: one bit short of the target, and on it. -/
theorem witness_PaddingHasTheStatedShape :
    (List.replicate 151 true).length ≤ 152 ∧ (List.replicate 152 true).length ≤ 152 ∧ 152 % 8 = 0 := by decide +kernel

/-- P9's length, P10's, and P12's target. -/
theorem witness_PadFillsToTheTarget :
    (19#16).toNat ≤ State.reset.cfg.bufBytes ∧ (start (List.replicate 152 true) 0#16 0#16 []).bitLen ≤ 8 * (19#16).toNat ∧
    State.reset.cfg.bufBytes < (4097#16).toNat ∧
    8 * (19#16).toNat < (start (List.replicate 153 true) 0#16 0#16 []).bitLen := by decide +kernel

/-- P13. -/
theorem witness_PadTwiceAppendsNothing :
    ends (exec (.pad 3#16) (start (bits 12 0x486) 0#16 0#16 [])) .ok 24 [0x48, 0x60, 0xEC] = true := by decide

theorem witness_NumericPayloadIsTheGroupsInOrder : validText .num digits = true := by decide

/-- The group values at the edges: 9, 10, 99, 100. -/
theorem witness_NumericGroupWidthByValue :
    validText .num [0x30, 0x30, 0x39] = true ∧ groupVal [0x30, 0x30, 0x39] ≤ 9 ∧
    10 ≤ groupVal [0x31, 0x30] ∧ groupVal [0x30, 0x39, 0x39] ≤ 99 ∧ 100 ≤ groupVal [0x31, 0x30, 0x30] := by decide

theorem witness_AlphanumericPayloadIsThePairsInOrder :
    validText .aln [0x3A, 0x3A, 0x41] = true ∧ alnVal 0x3A = some 44 := by decide

theorem witness_BytePayloadIsTheBytesInOrder : 15 < 8 * [0x00#8, 0xFF#8].length := by decide

theorem texted_ready {l : List Byte} (h : l.length ≤ 4096)
    (hr : ∀ k, k < l.length → (cells 0 l).read (0 + k) = l[k]?) : (texted l).TextReady l := by
  have hl : (texted l).srcLen.toNat = l.length := by simp [texted, start]; omega
  refine ⟨?_, hl.symm, ?_⟩
  · rw [hl]; simpa [texted, start, State.reset, Params.default] using h
  · rw [hl]; exact hr

theorem digits_ready : (texted digits).TextReady digits := texted_ready (by decide) (by decide)
theorem money_ready : (texted money).TextReady money := texted_ready (by decide) (by decide)

/-- V4 in numeric mode, V2's capacity in alphanumeric mode, V5 in byte mode. -/
theorem witness_EncodeCommandsBuildTheSegment :
    (texted digits).TextReady digits ∧ validText .num digits = true ∧ countWidth .num 1#6 = some 10 ∧
    digits.length < 2 ^ 10 ∧
    4 + 10 + (payload .num digits).length ≤ 8 * (texted digits).cfg.codewords .L (1#6).toNat ∧
    validText .aln digits = true ∧ countWidth .aln 40#6 = some 13 ∧
    4 + 13 + (payload .aln digits).length ≤ 8 * (texted digits).cfg.codewords .H (40#6).toNat ∧
    countWidth .byt 1#6 = some 8 ∧
    4 + 8 + (payload .byt digits).length ≤ 8 * (texted digits).cfg.codewords .L (1#6).toNat :=
  ⟨digits_ready, by decide⟩

/-- V12-3; V12-5, V12-4; a text over the capacity of the smallest machine (5 + 10 bits into 8). -/
theorem witness_EncodeErrorsInOrder :
    (texted money).TextReady money ∧ validText .num money = false ∧
    (texted digits).TextReady digits ∧ validText .num digits = true ∧ (0#6).toNat = 0 ∧ 41 ≤ (41#6).toNat ∧
    (tiny []).TextReady [] ∧ countWidth .num 1#6 = some 10 ∧
    8 * (tiny []).cfg.codewords .L (1#6).toNat < 4 + 10 + (payload .num []).length :=
  ⟨money_ready, by decide, digits_ready, by decide, by decide, by decide, ⟨by decide, by decide, by decide⟩, by decide,
    by decide⟩

theorem witness_EncodedLengthIsTheCapacity :
    (texted digits).cfg.valid = true ∧ encodeArgs (.ebest .L 1#6) = some (.L, 1#6) ∧
    nextHas (exec (.ebest .L 1#6) (texted digits)) (fun t => t.err == .ok) = true := by decide +kernel

theorem witness_EncodeSucceedsExactlyWhenItFits :
    validText .num digits = true ∧ (∀ k, 3 * k < digits.length → digits.getD (3 * k) 0 ≠ 0x30) ∧
    validText .aln digits = true := by
  refine ⟨by decide, fun k hk => ?_, by decide⟩
  have : k = 0 ∨ k = 1 := by simp only [digits, List.length_cons, List.length_nil] at hk; omega
  rcases this with rfl | rfl <;> decide

theorem witness_SegmentBeginsWithModeAndCount :
    nextHas (exec (encodeCmd .num .L 1#6) (texted digits)) (fun t => t.err == .ok) = true ∧
    nextHas (exec (encodeCmd .aln .L 1#6) (texted digits)) (fun t => t.err == .ok) = true ∧
    nextHas (exec (encodeCmd .byt .L 1#6) (texted money)) (fun t => t.err == .ok) = true := by decide +kernel

/-- V12-15: the empty text at the very end of the window. -/
theorem witness_EmptyTextIsValid :
    let s := start [] 4096#16 0#16 []
    s.srcLen = 0 ∧ s.srcOff.toNat ≤ s.cfg.inBytes ∧ countWidth .num 1#6 = some 10 ∧
    4 + 10 ≤ 8 * s.cfg.codewords .L (1#6).toNat := by decide

/-- V12-14 and B20 past the end, and a sum that a 16-bit adder would wrap; V12-15 for the second clause. -/
theorem witness_DescriptorIsCheckedFirst :
    isEncode (.enum .L 1#6) = true ∧
    (start [] 1#16 4096#16 []).cfg.inBytes < (start [] 1#16 4096#16 []).srcOff.toNat + (start [] 1#16 4096#16 []).srcLen.toNat ∧
    (start [] 0xFFFF#16 1#16 []).cfg.inBytes <
      (start [] 0xFFFF#16 1#16 []).srcOff.toNat + (start [] 0xFFFF#16 1#16 []).srcLen.toNat ∧
    (start [] 4096#16 0#16 []).srcLen = 0 ∧ (start [] 4096#16 0#16 []).srcOff.toNat ≤ (start [] 4096#16 0#16 []).cfg.inBytes := by
  decide

theorem witness_HandBuiltByteSegmentEqualsEbyt :
    (texted money).cfg.valid = true ∧
    nextHas (exec (.ebyt .L 1#6) (texted money)) (fun t => t.err == .ok) = true := by decide +kernel

/-- S1 numeric; a text `A` alphanumeric; S3 byte; S6 none. -/
theorem witness_EbestTakesTheFirstModeThatSucceeds :
    (texted digits).TextReady digits ∧ (texted money).TextReady money ∧
    FitsIn (texted digits).cfg .num .L 1#6 digits 10 ∧
    FitsIn (texted [0x41]).cfg .aln .L 1#6 [0x41] 9 ∧ (∀ v, ¬ FitsIn (texted [0x41]).cfg .num .L 1#6 [0x41] v) ∧
    FitsIn (texted money).cfg .byt .L 1#6 money 8 ∧ (∀ v, ¬ FitsIn (texted money).cfg .num .L 1#6 money v) ∧
    (∀ v, ¬ FitsIn (texted money).cfg .aln .L 1#6 money v) ∧
    ∀ m v, ¬ FitsIn (texted digits).cfg m .L 0#6 digits v :=
  ⟨digits_ready, money_ready, ⟨by decide, by decide, by decide, by decide⟩, ⟨by decide, by decide, by decide, by decide⟩,
    fun _ h => absurd h.1 (by decide), ⟨by decide, by decide, by decide, by decide⟩, fun _ h => absurd h.1 (by decide),
    fun _ h => absurd h.1 (by decide),
    fun m _ h => absurd h.2.1 (by rw [show countWidth m 0#6 = none by cases m <;> decide]; simp)⟩

/-- S1, a text `A`, S3: each clause's hypotheses. -/
theorem witness_SelectorOutcomes :
    (texted digits).TextReady digits ∧ validText .num digits = true ∧
    nextHas (exec (.enum .L 1#6) (texted digits)) (fun u => u.err == .ok) = true ∧
    (texted [0x41]).TextReady [0x41] ∧ validText .num [0x41] = false ∧ validText .aln [0x41] = true ∧
    nextHas (exec (.ealn .L 1#6) (texted [0x41])) (fun u => u.err == .ok) = true ∧
    (texted money).TextReady money ∧ validText .aln money = false ∧
    nextHas (exec (.ebyt .L 1#6) (texted money)) (fun u => u.err == .ok) = true :=
  ⟨digits_ready, by decide, by decide +kernel, texted_ready (by decide) (by decide), by decide, by decide,
    by decide +kernel, money_ready, by decide, by decide +kernel⟩

theorem witness_CapqReadsTheTable :
    (1 ≤ (1#6).toNat ∧ (1#6).toNat ≤ 40) ∧ (1 ≤ (40#6).toNat ∧ (40#6).toNat ≤ 40) ∧ (0#6).toNat = 0 ∧
    41 ≤ (41#6).toNat := by decide

theorem witness_ReadsHaveNoSideEffect :
    nextHas (hostAccess (.read 0x008#14 .w32) (start (bits 12 0x486) 0#16 0#16 []))
      (fun t => t.lastRead == some (.b32 12)) = true := by decide

theorem witness_LengthRegisters : (start (bits 12 0x486) 0#16 0#16 []).Inv :=
  inv_of rfl (by decide) (by decide) (by decide) rfl

theorem witness_OperandAndResultRegisters : State.reset.pend = none := rfl

theorem witness_CommandAcceptance : State.reset.pend = none ∧ (busyWith 0#32 []).pend ≠ none := by decide

/-- Busy; the ends of the IN window; an ignored register, an unmapped offset and an OUT byte. -/
theorem witness_OperandWritesWhileBusyFault :
    (busyWith 0#32 []).pend ≠ none ∧ 0x1000 ≤ (0x1000#14).toNat ∧
    (0x1FFF#14).toNat < 0x1000 + (busyWith 0#32 []).cfg.inBytes ∧
    ((0x00C#14).toNat < 0x1000 ∧ (0x00C#14).toNat % 4 = 0 ∧ (0x00C#14).toNat ≠ 0x000 ∧ (0x00C#14).toNat ≠ 0x010 ∧
      (0x00C#14).toNat ≠ 0x014) ∧
    ((0xFFC#14).toNat < 0x1000 ∧ (0xFFC#14).toNat % 4 = 0) ∧
    0x1000 + (busyWith 0#32 []).cfg.inBytes ≤ (0x2000#14).toNat := by decide

/-- The ends of each unmapped range, with a window smaller than its space on the smallest machine. -/
theorem witness_UnmappedOffsetsReadZero :
    State.reset.cfg.valid = true ∧ (tiny []).cfg.valid = true ∧
    (0x020 ≤ (0x020#14).toNat ∧ (0xFFC#14).toNat < 0x1000 ∧ (0xFFC#14).toNat % 4 = 0) ∧
    (0x1000 + (tiny []).cfg.inBytes ≤ (0x1003#14).toNat ∧ (0x1FFF#14).toNat < 0x2000) ∧
    0x2000 + (tiny []).cfg.bufBytes ≤ (0x2002#14).toNat ∧
    0x2000 + State.reset.cfg.bufBytes ≤ (0x3000#14).toNat := by decide +kernel

/-- The first and last byte of each window. -/
theorem witness_WindowBytes :
    State.reset.pend = none ∧ 0x1000 ≤ (0x1000#14).toNat ∧ (0x1FFF#14).toNat < 0x1000 + State.reset.cfg.inBytes ∧
    State.reset.cfg.valid = true ∧ 0x2000 ≤ (0x2000#14).toNat ∧
    (0x2FFF#14).toNat < 0x2000 + State.reset.cfg.bufBytes := by decide +kernel

/-- R-7's and R-8's shapes are not legal, a misaligned word is not, and the legal ones at their last offsets are. -/
theorem witness_OtherAccessShapesFault :
    ¬ ((Width.w8 = .w32 ∧ (0x004#14).toNat < 0x1000 ∧ (0x004#14).toNat % 4 = 0) ∨ (Width.w8 = .w8 ∧ 0x1000 ≤ (0x004#14).toNat)) ∧
    ¬ ((Width.w32 = .w32 ∧ (0x006#14).toNat < 0x1000 ∧ (0x006#14).toNat % 4 = 0) ∨
      (Width.w32 = .w8 ∧ 0x1000 ≤ (0x006#14).toNat)) ∧
    ((0xFFC#14).toNat < 0x1000 ∧ (0xFFC#14).toNat % 4 = 0) ∧ 0x1000 ≤ (0x3FFF#14).toNat ∧
    RData.width (.b8 0) = .w8 ∧ RData.width (.b32 0) = .w32 := by decide

/-- `APBV 16, 0xFFFF` is accepted, `APBV 17, 0` and `APBV 3, 8` are not; there is room. -/
theorem witness_PseudoInstructionsExpand :
    (16 ≤ 16 ∧ 0xFFFF < 2 ^ 16) ∧ (tiny []).bitLen + 16 ≤ 8 * (tiny []).cfg.bufBytes ∧ ¬ (17 ≤ 16 ∧ 0 < 2 ^ 17) ∧
    ¬ (3 ≤ 16 ∧ 8 < 2 ^ 3) ∧ (tiny (bits 12 0)).bitLen + 4 ≤ 8 * (tiny (bits 12 0)).cfg.bufBytes := by decide

end Sys2Proof.Tests
end

section
/-! SUPPORT. What a command writes, and that no step changes the parameters (10_state.md R30, R37). -/

namespace Sys2Proof.Machine

/-- `t` is `s` with its command completed and at most the stream written. -/
def State.CompletesStream (s t : State) : Prop := ∃ b e, t = (s.setStream b).complete e

theorem completesStream_of_succeed {b : Bits} {s t : State} (h : succeed (s.setStream b) = .next t) :
    s.CompletesStream t := ⟨b, .ok, succeed_next.1 h⟩

theorem completesStream_of_raise {e : ErrCode} {s t : State} (h : raise e s = .next t) : s.CompletesStream t :=
  ⟨s.stream, e, raise_next.1 h⟩

theorem completesStream_of_appendOrRange {b : Bits} {s t : State} (h : appendOrRange b s = .next t) :
    s.CompletesStream t := by
  obtain ⟨-, rfl⟩ | ⟨-, rfl⟩ := appendOrRange_next h
  · exact ⟨s.stream ++ b, .ok, rfl⟩
  · exact ⟨s.stream, .range, rfl⟩

theorem completesStream_of_encodeCommand {enc : List Byte → SegResult} {s t : State}
    (h : encodeCommand enc s = .next t) : s.CompletesStream t := by
  obtain ⟨-, rfl⟩ | ⟨_, -, hc⟩ := encodeCommand_next h
  · exact ⟨s.stream, .illegal, rfl⟩
  · obtain ⟨b, -, rfl⟩ | ⟨e, -, rfl⟩ := commit_next hc
    · exact ⟨b, .ok, rfl⟩
    · exact ⟨[], e, rfl⟩

theorem completesStream_of_execApb {cnt : BitVec 5} {val : Half} {s t : State} (h : execApb cnt val s = .next t) :
    s.CompletesStream t := by
  unfold execApb at h
  split at h
  · exact completesStream_of_raise h
  · exact completesStream_of_appendOrRange h

theorem completesStream_of_execApr {n : Half} {s t : State} (h : execApr n s = .next t) : s.CompletesStream t := by
  unfold execApr at h
  split at h
  · exact completesStream_of_raise h
  split at h
  · exact completesStream_of_raise h
  split at h
  · exact completesStream_of_raise h
  split at h
  · cases h
  · exact completesStream_of_succeed h

theorem completesStream_of_execEcnt {m : Mode} {ver : BitVec 6} {count : Half} {s t : State}
    (h : execEcnt m ver count s = .next t) : s.CompletesStream t := by
  unfold execEcnt at h
  split at h
  · exact completesStream_of_raise h
  split at h
  · exact completesStream_of_raise h
  · exact completesStream_of_appendOrRange h

theorem completesStream_of_execPad {tgt : Half} {s t : State} (h : execPad tgt s = .next t) :
    s.CompletesStream t := by
  unfold execPad at h
  split at h
  · exact completesStream_of_raise h
  split at h
  · exact completesStream_of_raise h
  · exact completesStream_of_succeed h

theorem execCapq_next {tbl : TblSel} {lvl : Level} {ver : BitVec 6} {s t : State}
    (h : execCapq tbl lvl ver s = .next t) : ∃ v e, t = (s.setCapVal v).complete e := by
  unfold execCapq at h
  split at h
  · exact ⟨s.capVal, .version, raise_next.1 h⟩
  · exact ⟨_, .ok, succeed_next.1 h⟩

/-- All a command can write besides `PEND` and `ERR`: `CAPQ` the register `CAPVAL`, any other command the stream. -/
theorem exec_next {i : Instr} {s t : State} (h : exec i s = .next t) :
    (isCapq i = false ∧ s.CompletesStream t) ∨ (isCapq i = true ∧ ∃ v e, t = (s.setCapVal v).complete e) := by
  cases i with
  | clr => exact .inl ⟨rfl, completesStream_of_succeed h⟩
  | apb => exact .inl ⟨rfl, completesStream_of_execApb h⟩
  | apr => exact .inl ⟨rfl, completesStream_of_execApr h⟩
  | ecnt => exact .inl ⟨rfl, completesStream_of_execEcnt h⟩
  | pad => exact .inl ⟨rfl, completesStream_of_execPad h⟩
  | enum | ealn | ebyt | ebest => exact .inl ⟨rfl, completesStream_of_encodeCommand h⟩
  | capq => exact .inr ⟨rfl, execCapq_next h⟩

theorem exec_next_cfg {i : Instr} {s t : State} (h : exec i s = .next t) : t.cfg = s.cfg := by
  obtain ⟨-, _, _, rfl⟩ | ⟨-, _, _, rfl⟩ := exec_next h
  · simp
  · simp

theorem runWord_next_cfg {w : Word} {s t : State} (h : runWord w s = .next t) : t.cfg = s.cfg := by
  obtain ⟨i, -, hr⟩ | ⟨_, -, hr⟩ := runWord_cases w s
  · exact exec_next_cfg (hr.symm.trans h)
  · cases hr.symm.trans h
    simp

theorem hostRead_next {off : BitVec 14} {width : Width} {s t : State} (h : hostRead off width s = .next t) :
    t = s.setLastRead (s.readData off.toNat width) := by
  obtain ⟨hr, -⟩ | ⟨hr, -⟩ := hostRead_cases off width s
  · cases hr.symm.trans h
    rfl
  · cases hr.symm.trans h

theorem hostAccess_next_cfg {a : Access} {s t : State} (h : hostAccess a s = .next t) : t.cfg = s.cfg := by
  cases a with
  | read off width => rw [hostRead_next h, State.setLastRead_cfg]
  | write off d =>
    obtain ⟨-, ⟨_, rfl⟩ | ⟨_, rfl⟩ | ⟨_, rfl⟩ | ⟨_, _, -, rfl⟩⟩ | rfl := hostWrite_next h
    all_goals rfl

/-- The parameters and the capacity tables are constant. -/
theorem step_next_cfg {s t : State} (h : step s = .next t) : t.cfg = s.cfg := by
  obtain ⟨u, hu, hturn⟩ := nextTurn_next h
  have hcfg : u.cfg = s.cfg := by
    obtain rfl | ⟨_, rfl⟩ := hu
    · rfl
    · simp
  rw [← hcfg]
  obtain ⟨_, ha⟩ | ⟨_, -, hw⟩ | ⟨-, rfl⟩ | rfl := hturn
  · exact hostAccess_next_cfg ha
  · exact runWord_next_cfg hw
  · rfl
  · simp

end Sys2Proof.Machine
end

section
/-! SUPPORT. The registers at their offsets, and the value of a word made of two fields (20_memory.md R55,
10_state.md section 2). -/

namespace Sys2Proof.Machine

@[simp] theorem regAt_offset (r : Reg) : regAt r.offset.toNat = some r := by cases r <;> rfl

@[simp] theorem regShape_offset (r : Reg) : regShape r.offset = true := by cases r <;> rfl

/-- A 32-bit read at a register's offset returns that register's value and nothing else. -/
theorem State.reads_reg_iff {s : State} {r : Reg} {v : Word} :
    s.Reads r.offset .w32 (.b32 v) ↔ v = s.readReg r := by
  simp [State.Reads, hostAccess, hostRead, legalShape, State.readData, State.readWord, State.setLastRead, eq_comm]

theorem State.reads_reg (s : State) (r : Reg) : s.Reads r.offset .w32 (.b32 (s.readReg r)) :=
  State.reads_reg_iff.2 rfl

/-- A 32-bit write at a register's offset is judged by the register alone. -/
theorem hostAccess_write_reg (r : Reg) (w : Word) (s : State) :
    hostAccess (.write r.offset (.b32 w)) s = writeWord r.offset.toNat w s := by
  simp [hostAccess, hostWrite]

/-- The registers a host write can reach (10_state.md R24, R28). -/
def Reg.writable : Reg → Bool
  | .cmd | .srcOff | .srcLen => true
  | .status | .bitlen | .outlen | .capval | .info => false

theorem hostAccess_write_readOnly {r : Reg} (hr : r.writable = false) (w : Word) (s : State) :
    hostAccess (.write r.offset (.b32 w)) s = .next s := by
  rw [hostAccess_write_reg]
  cases r with
  | cmd | srcOff | srcLen => cases hr
  | status | bitlen | outlen | capval | info => rfl

theorem hostAccess_write_cmd (w : Word) (s : State) :
    hostAccess (.write Reg.cmd.offset (.b32 w)) s = unlessBusy .cmdWhileBusy s (s.accept w) := rfl

theorem hostAccess_write_srcOff (w : Word) (s : State) :
    hostAccess (.write Reg.srcOff.offset (.b32 w)) s =
      unlessBusy (.operandWriteWhileBusy 0x010) s (s.setSrcOff (w.setWidth 16)) := rfl

theorem hostAccess_write_srcLen (w : Word) (s : State) :
    hostAccess (.write Reg.srcLen.offset (.b32 w)) s =
      unlessBusy (.operandWriteWhileBusy 0x014) s (s.setSrcLen (w.setWidth 16)) := rfl

theorem unlessBusy_idle {s : State} (h : s.pend = none) (f : Fault) (t : State) : unlessBusy f s t = .next t := by
  simp [unlessBusy, State.busy, h]

theorem unlessBusy_busy {s : State} (h : s.pend ≠ none) (f : Fault) (t : State) : unlessBusy f s t = .fault f := by
  simp [unlessBusy, State.busy, Option.isSome_iff_ne_none.2 h]

/-- Two fields side by side in a word: the upper one starts at bit `lo`, above the lower one. -/
theorem toNat_place_or {n m lo : Nat} (x : BitVec n) (y : BitVec m) (hm : m ≤ lo) (hn : lo + n ≤ 32) :
    (place lo x ||| place 0 y).toNat = x.toNat * 2 ^ lo + y.toNat := by
  have hy : y.toNat < 2 ^ lo := y.isLt.trans_le (Nat.pow_le_pow_right (by omega) hm)
  have hx : x.toNat * 2 ^ lo < 2 ^ 32 :=
    calc x.toNat * 2 ^ lo < 2 ^ n * 2 ^ lo := Nat.mul_lt_mul_of_pos_right x.isLt (by positivity)
      _ = 2 ^ (lo + n) := by rw [← Nat.pow_add, Nat.add_comm]
      _ ≤ 2 ^ 32 := Nat.pow_le_pow_right (by omega) hn
  have hplace : (place lo x).toNat = x.toNat <<< lo := by
    rw [place, BitVec.toNat_shiftLeft, BitVec.toNat_setWidth_of_le (by omega), Nat.shiftLeft_eq, Nat.mod_eq_of_lt hx]
  rw [BitVec.toNat_or, toNat_place_zero y (by omega), hplace, ← Nat.shiftLeft_add_eq_or_of_lt hy, Nat.shiftLeft_eq]

theorem toNat_statusWord (s : State) :
    s.statusWord.toNat = (if s.pend = none then 0 else 1) * 2 ^ 31 + s.err.code.toNat := by
  rw [State.statusWord, toNat_place_or _ _ (by omega) (by omega)]
  cases h : s.pend <;> simp [State.busy, h]

theorem toNat_readReg_info {s : State} (h : s.cfg.valid = true) :
    (s.readReg .info).toNat = s.cfg.inBytes * 2 ^ 16 + s.cfg.bufBytes := by
  obtain ⟨hbuf, -, hin⟩ := Params.sizes h
  rw [State.readReg, toNat_place_or _ _ (by omega) (by omega), BitVec.toNat_ofNat, BitVec.toNat_ofNat,
    Nat.mod_eq_of_lt (by omega), Nat.mod_eq_of_lt (by omega)]

/-- Under the invariant the stream is far shorter than 2^16 bits, so `BITLEN` holds its length. -/
theorem toNat_readReg_bitlen {s : State} (h : s.Inv) : (s.readReg .bitlen).toNat = s.bitLen := by
  obtain ⟨hbuf, -⟩ := Params.sizes h.params
  have := h.fits
  rw [State.readReg, toNat_place_zero _ (by omega), BitVec.toNat_ofNat, Nat.mod_eq_of_lt (by omega)]

theorem toNat_readReg_outlen {s : State} (h : s.Inv) : (s.readReg .outlen).toNat = s.outLen := by
  obtain ⟨hbuf, -⟩ := Params.sizes h.params
  have := h.fits
  have : s.outLen < 2 ^ 16 := by unfold State.outLen; omega
  rw [State.readReg, toNat_place_zero _ (by omega), BitVec.toNat_ofNat, Nat.mod_eq_of_lt this]

theorem ErrCode.code_toNat_le (e : ErrCode) : e.code.toNat ≤ 5 := by cases e <;> decide

end Sys2Proof.Machine
end

section
/-! SUPPORT. A bit of `BUF` is a bit of the stream (10_state.md R22). -/

namespace Sys2Proof.Machine

theorem State.getLsbD_bufByte (s : State) (k : Nat) {j : Nat} (hj : j ≤ 7) :
    (s.bufByte k).getLsbD (7 - j) = s.streamBit (8 * k + j) := by
  rw [State.bufByte, BitVec.getLsbD_ofBoolListBE]
  interval_cases j <;> rfl

theorem State.streamBit_eq (s : State) (i : Nat) :
    s.streamBit i = if h : i < s.bitLen then s.stream[i]'h else false := by
  split
  next h => exact List.getD_eq_getElem _ _ h
  next h => exact List.getD_eq_default _ _ (not_lt.1 h)

theorem State.bufByte_of_stream_nil {s : State} (h : s.stream = []) (k : Nat) : s.bufByte k = 0 := by
  refine BitVec.eq_of_getLsbD_eq fun i hi => ?_
  have hbit := s.getLsbD_bufByte k (j := 7 - i) (by omega)
  rw [Nat.sub_sub_self (by omega)] at hbit
  simp [hbit, State.streamBit, h]

end Sys2Proof.Machine
end

section
/-! SUPPORT. The values of 10_state.md R38 hold after power-on and after the reset input. -/

namespace Sys2Proof.Machine

theorem State.readReg_status_of_idle {s : State} (hp : s.pend = none) (he : s.err = .ok) : s.readReg .status = 0 := by
  refine BitVec.eq_of_toNat_eq ?_
  rw [State.readReg, toNat_statusWord, if_pos hp, he]
  rfl

theorem State.readReg_lengths_of_stream_nil {s : State} (h : s.stream = []) :
    s.readReg .bitlen = 0 ∧ s.readReg .outlen = 0 := by
  have hlen : s.bitLen = 0 := by simp [State.bitLen, h]
  constructor
  · rw [State.readReg, hlen]
    rfl
  · rw [State.readReg, State.outLen, hlen]
    rfl

/-- Whatever the parameters and the model's own fields are, the other fields of `State.reset` read as R38 asks. -/
theorem State.resetValues_reset_with (cfg : Params) (turns : List Turn) (lastRead : Option RData) (epoch : Nat) :
    State.ResetValues { State.reset with cfg, turns, lastRead, epoch } where
  stream := rfl
  pend := rfl
  busy := rfl
  err := rfl
  status := State.readReg_status_of_idle rfl rfl
  bitlen := (State.readReg_lengths_of_stream_nil rfl).1
  outlen := (State.readReg_lengths_of_stream_nil rfl).2
  srcOff := rfl
  srcLen := rfl
  capval := rfl
  buf := State.bufByte_of_stream_nil rfl
  unwritten _ := rfl

theorem State.resetValues_reset : State.reset.ResetValues :=
  State.resetValues_reset_with Params.default [] none 0

theorem State.resetValues_applyReset (s : State) : s.applyReset.ResetValues :=
  State.resetValues_reset_with s.cfg s.turns s.lastRead (s.epoch + 1)

/-- `INFO` depends on the parameters alone. -/
theorem State.readReg_info_congr {s t : State} (h : t.cfg = s.cfg) : t.readReg .info = s.readReg .info := by
  simp only [State.readReg, h]

end Sys2Proof.Machine
end

section
/-! SUPPORT. The statements about the state (10_state.md). -/

namespace Sys2Proof.Proofs

open Sys2Proof.Machine

/-- Settles O13: `INFO` is read from the parameters alone, and no step changes these. -/
theorem infoAndTablesNeverChange : Obligations.InfoAndTablesNeverChange := by
  refine ⟨fun s hvalid => ⟨s.readReg .info, s.reads_reg .info, ?_, ?_⟩, fun s t v hstep hread => ?_,
    fun s t hstep => ?_, fun s w => hostAccess_write_readOnly (r := .info) rfl w s⟩
  · obtain ⟨hbuf, -⟩ := Params.sizes hvalid
    rw [slice, toNat_readReg_info hvalid]
    omega
  · obtain ⟨hbuf, -, hin⟩ := Params.sizes hvalid
    rw [slice, toNat_readReg_info hvalid]
    omega
  · have hv : v = s.readReg .info := State.reads_reg_iff (r := .info).1 hread
    rw [hv, ← State.readReg_info_congr (step_next_cfg hstep)]
    exact t.reads_reg .info
  · have hcfg := step_next_cfg hstep
    exact ⟨hcfg, fun _ _ => by rw [hcfg]⟩

/-- Settles O21: bit `7 - j` of `BUF[k]` is `S[8k + j]`, read as 0 past the end. -/
theorem bufferIsTheByteViewOfTheStream : Obligations.BufferIsTheByteViewOfTheStream := by
  intro s k j hj
  rw [s.getLsbD_bufByte k hj, s.streamBit_eq]

/-- Settles O12: both states are `State.reset` but for the parameters and the model's own fields. -/
theorem resetGivesTheValuesOfTheSpec : Obligations.ResetGivesTheValuesOfTheSpec :=
  ⟨State.resetValues_reset, fun s =>
    ⟨s.applyReset, rfl, s.resetValues_applyReset, s.applyReset_cfg, State.readReg_info_congr s.applyReset_cfg⟩⟩

/-- Settles O51, from the value of `STATUS` as `BUSY * 2^31 + ERR`. -/
theorem statusRegisterFields : Obligations.StatusRegisterFields := by
  intro s
  have hword := toNat_statusWord s
  have herr := s.err.code_toNat_le
  have hcode : slice s.statusWord 3 0 = s.err.code.toNat := by
    rw [slice, hword]
    split <;> omega
  refine ⟨⟨s.statusWord, s.reads_reg .status, ?_, ?_, hcode.trans_le herr, ?_⟩,
    fun w => hostAccess_write_readOnly (r := .status) rfl w s⟩
  · rw [slice, hword]
    split <;> omega
  · rw [slice, hword]
    split <;> omega
  · rw [hcode]
    cases s.err <;> rfl

/-- Settles O52: under the invariant both lengths fit their 16-bit fields. -/
theorem lengthRegisters : Obligations.LengthRegisters := fun s hinv =>
  ⟨⟨s.readReg .bitlen, s.reads_reg .bitlen, toNat_readReg_bitlen hinv⟩,
    ⟨s.readReg .outlen, s.reads_reg .outlen, toNat_readReg_outlen hinv⟩,
    fun w => ⟨hostAccess_write_readOnly (r := .bitlen) rfl w s, hostAccess_write_readOnly (r := .outlen) rfl w s⟩⟩

/-- Settles O53: an idle write reaches the one register at its offset, and a 16-bit field at bit 0 reads as itself. -/
theorem operandAndResultRegisters : Obligations.OperandAndResultRegisters := by
  intro s
  refine ⟨fun w hidle => ⟨?_, ?_⟩,
    ⟨s.readReg .srcOff, s.reads_reg .srcOff, toNat_place_zero s.srcOff (by omega)⟩,
    ⟨s.readReg .srcLen, s.reads_reg .srcLen, toNat_place_zero s.srcLen (by omega)⟩,
    ⟨s.readReg .capval, s.reads_reg .capval, toNat_place_zero s.capVal (by omega)⟩,
    fun w => hostAccess_write_readOnly (r := .capval) rfl w s⟩
  · exact (hostAccess_write_srcOff w s).trans (unlessBusy_idle hidle _ _)
  · exact (hostAccess_write_srcLen w s).trans (unlessBusy_idle hidle _ _)

/-- Settles O54: a `CMD` write is an acceptance guarded by `BUSY`. -/
theorem commandAcceptance : Obligations.CommandAcceptance := fun s w =>
  ⟨fun hidle => (hostAccess_write_cmd w s).trans (unlessBusy_idle hidle _ _),
    fun hbusy => (hostAccess_write_cmd w s).trans (unlessBusy_busy hbusy _ _),
    s.reads_reg .cmd⟩

end Sys2Proof.Proofs
end

section
/-! SUPPORT. The host's address map and what a read or a write at a window offset does (20_memory.md R52, R53, R55, R57,
R60). -/

namespace Sys2Proof.Machine

/-! ### Reads -/

/-- A read of a legal shape returns its data and changes nothing of the core. -/
theorem State.reads_of_legalShape {off : BitVec 14} {width : Width} (h : legalShape off width = true) (s : State) :
    s.Reads off width (s.readData off.toNat width) := by
  obtain ⟨hr, -⟩ | ⟨-, hf⟩ := hostRead_cases off width s
  · exact hr
  · exact absurd (h.symm.trans hf) (by simp)

theorem State.reads_word {off : BitVec 14} (hreg : off.toNat < 0x1000) (halign : off.toNat % 4 = 0) (s : State) :
    s.Reads off .w32 (.b32 (s.readWord off.toNat)) :=
  s.reads_of_legalShape (width := .w32) (decide_eq_true ⟨hreg, halign⟩)

theorem State.reads_byte {off : BitVec 14} (hwin : 0x1000 ≤ off.toNat) (s : State) :
    s.Reads off .w8 (.b8 (s.readByte off.toNat)) :=
  s.reads_of_legalShape (width := .w8) (decide_eq_true hwin)

/-! ### What the host has read is not read back -/

@[simp] theorem State.readReg_setLastRead (s : State) (d : RData) (r : Reg) :
    (s.setLastRead d).readReg r = s.readReg r := by
  cases r <;> rfl

@[simp] theorem State.readWord_setLastRead (s : State) (d : RData) (off : Nat) :
    (s.setLastRead d).readWord off = s.readWord off := by
  simp only [State.readWord, State.readReg_setLastRead]

@[simp] theorem State.readByte_setLastRead (s : State) (d : RData) (off : Nat) :
    (s.setLastRead d).readByte off = s.readByte off := rfl

@[simp] theorem State.readData_setLastRead (s : State) (d : RData) (off : Nat) (width : Width) :
    (s.setLastRead d).readData off width = s.readData off width := by
  cases width with
  | w32 => simp only [State.readData, State.readWord_setLastRead]
  | w16 => rfl
  | w8 => simp only [State.readData, State.readByte_setLastRead]

@[simp] theorem State.setLastRead_setLastRead (s : State) (d d' : RData) :
    (s.setLastRead d).setLastRead d' = s.setLastRead d' := rfl

/-! ### The address map -/

theorem regAt_eq_some {off : Nat} {r : Reg} (h : regAt off = some r) : off = r.offset.toNat := by
  unfold regAt at h
  split at h <;> cases h <;> rfl

theorem regAt_of_ge {off : Nat} (h : 0x020 ≤ off) : regAt off = none := by
  refine Option.eq_none_iff_forall_ne_some.2 fun r hr => ?_
  have hlast : r.offset.toNat ≤ 0x01C := by cases r <;> decide
  have := regAt_eq_some hr
  omega

theorem windowAt_in {p : Params} {off : Nat} (hlo : 0x1000 ≤ off) (hhi : off < 0x1000 + p.inBytes) :
    windowAt p off = .inByte (off - 0x1000) := if_pos ⟨hlo, hhi⟩

/-- The IN window ends before 0x2000, so the two windows do not meet. -/
theorem windowAt_out {p : Params} {off : Nat} (hin : p.inBytes ≤ 4096) (hlo : 0x2000 ≤ off)
    (hhi : off < 0x2000 + p.bufBytes) : windowAt p off = .outByte (off - 0x2000) := by
  rw [windowAt, if_neg (by omega), if_pos ⟨hlo, hhi⟩]

theorem windowAt_between {p : Params} {off : Nat} (hlo : 0x1000 + p.inBytes ≤ off) (hhi : off < 0x2000) :
    windowAt p off = .unmapped := by
  rw [windowAt, if_neg (by omega), if_neg (by omega)]

theorem windowAt_past {p : Params} {off : Nat} (hin : p.inBytes ≤ 4096) (hlo : 0x2000 + p.bufBytes ≤ off) :
    windowAt p off = .unmapped := by
  rw [windowAt, if_neg (by omega), if_neg (by omega)]

/-! ### What a read of each kind of offset returns -/

theorem State.reads_of_regAt_none {s : State} {off : BitVec 14} (hreg : off.toNat < 0x1000) (halign : off.toNat % 4 = 0)
    (h : regAt off.toNat = none) : s.Reads off .w32 (.b32 0) := by
  have hread := s.reads_word hreg halign
  rwa [State.readWord, h] at hread

theorem State.reads_of_inByte {s : State} {off : BitVec 14} {i : Nat} (hwin : 0x1000 ≤ off.toNat)
    (h : windowAt s.cfg off.toNat = .inByte i) : s.Reads off .w8 (.b8 (s.readIn i)) := by
  have hread := s.reads_byte hwin
  rwa [State.readByte, h] at hread

theorem State.reads_of_outByte {s : State} {off : BitVec 14} {k : Nat} (hwin : 0x1000 ≤ off.toNat)
    (h : windowAt s.cfg off.toNat = .outByte k) : s.Reads off .w8 (.b8 (s.bufByte k)) := by
  have hread := s.reads_byte hwin
  rwa [State.readByte, h] at hread

theorem State.reads_of_unmapped {s : State} {off : BitVec 14} (hwin : 0x1000 ≤ off.toNat)
    (h : windowAt s.cfg off.toNat = .unmapped) : s.Reads off .w8 (.b8 0) := by
  have hread := s.reads_byte hwin
  rwa [State.readByte, h] at hread

@[simp] theorem State.readIn_setIn_same (s : State) (i : Nat) (b : Byte) : (s.setIn i b).readIn i = b := by
  rw [State.readIn, State.setIn_inMem, Memory.read_write_same]

/-! ### Writes to the windows -/

theorem hostAccess_write_byte {off : BitVec 14} (hwin : 0x1000 ≤ off.toNat) (b : Byte) (s : State) :
    hostAccess (.write off (.b8 b)) s = writeByte off.toNat b s :=
  if_pos (decide_eq_true hwin)

/-- A write of an IN byte is judged by `BUSY` alone. -/
theorem hostAccess_write_in {off : BitVec 14} {s : State} (hlo : 0x1000 ≤ off.toNat)
    (hhi : off.toNat < 0x1000 + s.cfg.inBytes) (b : Byte) :
    hostAccess (.write off (.b8 b)) s =
      unlessBusy (.operandWriteWhileBusy off.toNat) s (s.setIn (off.toNat - 0x1000) b) := by
  rw [hostAccess_write_byte hlo, writeByte, windowAt_in hlo hhi]

end Sys2Proof.Machine
end

section
/-! SUPPORT. The statements about host reads and the windows (20_memory.md). -/

namespace Sys2Proof.Proofs

open Sys2Proof.Machine

/-- Settles O50: a read writes `lastRead` alone, and no read's data depends on `lastRead`. -/
theorem readsHaveNoSideEffect : Obligations.ReadsHaveNoSideEffect := by
  intro off width s t h
  obtain ⟨hr, hlegal⟩ | ⟨hr, -⟩ := hostRead_cases off width s
  · cases hr.symm.trans h
    refine ⟨s.readData off.toNat width, rfl, ?_⟩
    have again := (s.setLastRead (s.readData off.toNat width)).reads_of_legalShape hlegal
    rw [State.readData_setLastRead] at again
    exact again
  · cases hr.symm.trans h

/-- Settles O56: past `INFO` there is no register, and under R7's sizes the windows do not meet. -/
theorem unmappedOffsetsReadZero : Obligations.UnmappedOffsetsReadZero := by
  intro s off hvalid
  obtain ⟨-, -, hin⟩ := Params.sizes hvalid
  refine ⟨fun hlo hhi halign => State.reads_of_regAt_none hhi halign (regAt_of_ge hlo), fun hlo hhi => ?_, fun hlo => ?_⟩
  · exact State.reads_of_unmapped (by omega) (windowAt_between hlo hhi)
  · exact State.reads_of_unmapped (by omega) (windowAt_past hin hlo)

/-- Settles O57: an idle write of an IN byte is `State.setIn`, and an OUT offset is mapped to its byte of `BUF`. -/
theorem windowBytes : Obligations.WindowBytes := by
  refine ⟨fun s off b hidle hlo hhi => ?_, fun s off hvalid hlo hhi => ?_⟩
  · refine ⟨s.setIn (off.toNat - 0x1000) b, (hostAccess_write_in hlo hhi b).trans (unlessBusy_idle hidle _ _), rfl, ?_,
      Memory.read_write_same _ _ _, fun a ha => Memory.read_write_other _ _ ha⟩
    have hread := State.reads_of_inByte (s := s.setIn (off.toNat - 0x1000) b) hlo (windowAt_in hlo hhi)
    rwa [State.readIn_setIn_same] at hread
  · obtain ⟨-, -, hin⟩ := Params.sizes hvalid
    exact State.reads_of_outByte (by omega) (windowAt_out hin hlo hhi)

end Sys2Proof.Proofs
end

section
/-! SUPPORT. The decoder: a row of the opcode map as an opcode and a list of reserved fields, a word hits at most one row,
and the illegal words (30_encoding.md R71, R77, R78). -/

namespace Sys2Proof

open Sys2Proof.Machine

/-! ### Fields of a word and their masks -/

/-- The word with the bits `hi` down to `lo` set. -/
def fieldMask (hi lo : Nat) : Word := BitVec.ofNat 32 ((2 ^ (hi + 1 - lo) - 1) <<< lo)

/-- A word under the mask of a field is the field's slice, at the field's place. -/
theorem toNat_and_fieldMask (w : Word) {hi lo : Nat} (hlo : lo ≤ hi) (hhi : hi < 32) :
    (w &&& fieldMask hi lo).toNat = slice w hi lo * 2 ^ lo := by
  have hmask : (2 ^ (hi + 1 - lo) - 1) <<< lo < 2 ^ 32 :=
    (Nat.shiftLeft_lt (Nat.sub_one_lt (Nat.two_pow_pos _).ne')).trans_le (Nat.pow_le_pow_right (by omega) (by omega))
  rw [fieldMask, BitVec.toNat_and, BitVec.toNat_ofNat, Nat.mod_eq_of_lt hmask, slice, ← Nat.shiftLeft_eq,
    ← Nat.and_two_pow_sub_one_eq_mod, Nat.shiftLeft_and_distrib, ← Nat.shiftRight_eq_div_pow]
  refine Nat.eq_of_testBit_eq fun k => ?_
  by_cases hk : lo ≤ k
  · simp [hk]
  · simp [hk]

/-- The mask of a list of fields, each given by its highest and lowest bit. -/
def fieldsMask : List (Nat × Nat) → Word
  | [] => 0#32
  | (hi, lo) :: rest => fieldMask hi lo ||| fieldsMask rest

/-- Every field of the list reads 0. -/
def FieldsZero (w : Word) (fs : List (Nat × Nat)) : Prop := ∀ f ∈ fs, slice w f.1 f.2 = 0

@[simp] theorem fieldsZero_nil (w : Word) : FieldsZero w [] := List.forall_mem_nil _

@[simp] theorem fieldsZero_cons {w : Word} {hi lo : Nat} {rest : List (Nat × Nat)} :
    FieldsZero w ((hi, lo) :: rest) ↔ slice w hi lo = 0 ∧ FieldsZero w rest :=
  List.forall_mem_cons

theorem and_fieldMask_eq_zero {w : Word} {hi lo : Nat} (hlo : lo ≤ hi) (hhi : hi < 32) :
    w &&& fieldMask hi lo = 0#32 ↔ slice w hi lo = 0 := by
  rw [← BitVec.toNat_inj, toNat_and_fieldMask w hlo hhi]
  simp

theorem and_fieldsMask_eq_zero {w : Word} {fs : List (Nat × Nat)} (h : ∀ f ∈ fs, f.2 ≤ f.1 ∧ f.1 < 32) :
    w &&& fieldsMask fs = 0#32 ↔ FieldsZero w fs := by
  induction fs with
  | nil => simp [fieldsMask]
  | cons f rest ih =>
    obtain ⟨⟨hlo, hhi⟩, hrest⟩ := List.forall_mem_cons.1 h
    rw [fieldsMask, BitVec.and_or_distrib_left, BitVec.or_eq_zero_iff, and_fieldMask_eq_zero hlo hhi, ih hrest,
      fieldsZero_cons]

theorem and_or_and_self (w a b : Word) : w &&& (a ||| b) &&& a = w &&& a := by
  ext k hk
  simp only [BitVec.getElem_and, BitVec.getElem_or]
  cases a[k] <;> simp

/-- A test under the union of two masks, whose pattern lies in the first alone, is two tests. -/
theorem and_or_eq_iff {w a b p : Word} (ha : p &&& a = p) (hb : p &&& b = 0#32) :
    w &&& (a ||| b) = p ↔ w &&& a = p ∧ w &&& b = 0#32 := by
  constructor
  · rintro rfl
    rw [and_or_and_self] at ha
    rw [BitVec.or_comm, and_or_and_self] at hb
    exact ⟨ha, hb⟩
  · rintro ⟨h₁, h₂⟩
    rw [BitVec.and_or_distrib_left, h₁, h₂, BitVec.or_zero]

/-! ### The opcode map -/

/-- The opcode of a command (30_encoding.md R77). -/
def Op.code : Op → Nat
  | .clr => 0x1
  | .apb => 0x2
  | .apr => 0x3
  | .ecnt => 0x4
  | .pad => 0x5
  | .enum => 0x6
  | .ealn => 0x7
  | .ebyt => 0x8
  | .ebest => 0x9
  | .capq => 0xA

/-- The commands in the order of their opcodes, which is that of the map's rows. -/
def Op.all : List Op := [.clr, .apb, .apr, .ecnt, .pad, .enum, .ealn, .ebyt, .ebest, .capq]

theorem Op.all_getElem?_code (op : Op) : Op.all[op.code - 1]? = some op := by cases op <;> rfl

theorem Op.mem_all (op : Op) : op ∈ Op.all := List.mem_of_getElem? op.all_getElem?_code

theorem Op.code_injective : Function.Injective Op.code := fun a b h =>
  Option.some.inj (by rw [← a.all_getElem?_code, h, b.all_getElem?_code])

/-- The reserved bits of the format of a command (30_encoding.md R71). -/
def Op.reserved : Op → List (Nat × Nat)
  | .clr => [(27, 0)]
  | .apb => [(27, 21)]
  | .apr | .pad => [(27, 16)]
  | .ecnt => [(25, 22)]
  | .enum | .ealn | .ebyt | .ebest => [(27, 26), (23, 22), (15, 0)]
  | .capq => [(27, 26), (23, 22), (15, 3)]

/-- The row of a command in the opcode map, from its opcode and its reserved bits (30_encoding.md R77). -/
def Op.row (op : Op) : Row where
  op := op
  pattern := BitVec.ofNat 32 (op.code * 2 ^ 28)
  mask := fieldMask 31 28 ||| fieldsMask op.reserved

theorem rows_eq_map_row : rows = Op.all.map Op.row := by decide

theorem mem_rows_iff {r : Row} : r ∈ rows ↔ ∃ op, r = Op.row op := by
  rw [rows_eq_map_row, List.mem_map]
  constructor
  · rintro ⟨op, -, rfl⟩
    exact ⟨op, rfl⟩
  · rintro ⟨op, rfl⟩
    exact ⟨op, op.mem_all, rfl⟩

/-- A word hits a command's row when it has the command's opcode and its reserved bits are 0. -/
theorem Op.row_hits_iff {op : Op} {w : Word} :
    op.row.hits w = true ↔ slice w 31 28 = op.code ∧ FieldsZero w op.reserved := by
  have hopc : w &&& fieldMask 31 28 = op.row.pattern ↔ slice w 31 28 = op.code := by
    have hp : op.row.pattern.toNat = op.code * 2 ^ 28 := by cases op <;> rfl
    rw [← BitVec.toNat_inj, toNat_and_fieldMask w (by omega) (by omega), hp]
    omega
  have hfields : ∀ f ∈ op.reserved, f.2 ≤ f.1 ∧ f.1 < 32 := by cases op <;> decide
  have hin : op.row.pattern &&& fieldMask 31 28 = op.row.pattern := by cases op <;> decide
  have hout : op.row.pattern &&& fieldsMask op.reserved = 0#32 := by cases op <;> decide
  rw [Row.hits, beq_iff_eq, show op.row.mask = fieldMask 31 28 ||| fieldsMask op.reserved from rfl,
    and_or_eq_iff hin hout, hopc, and_fieldsMask_eq_zero hfields]

theorem Op.eq_of_row_hits {a b : Op} {w : Word} (ha : a.row.hits w = true) (hb : b.row.hits w = true) : a = b :=
  Op.code_injective ((Op.row_hits_iff.1 ha).1.symm.trans (Op.row_hits_iff.1 hb).1)

/-! ### What the decoder answers -/

/-- The row the decoder finds is a command's, and the word hits it. -/
theorem exists_op_of_find {w : Word} {r : Row} (h : rows.find? (fun r => r.hits w) = some r) :
    ∃ op : Op, r = op.row ∧ op.row.hits w = true := by
  obtain ⟨op, rfl⟩ := mem_rows_iff.1 (List.mem_of_find?_eq_some h)
  exact ⟨op, rfl, List.find?_some (p := fun r : Row => r.hits w) h⟩

/-- A word that hits a row is judged by its fields. -/
theorem decode_of_row_hits {op : Op} {w : Word} (h : op.row.hits w = true) : decode w = fieldsOf w op := by
  rw [decode]
  split
  next r hfind =>
    obtain ⟨op', rfl, hhit⟩ := exists_op_of_find hfind
    rw [Op.eq_of_row_hits h hhit]
    rfl
  next hfind => exact absurd h (List.find?_eq_none.1 hfind _ (mem_rows_iff.2 ⟨op, rfl⟩))

theorem decode_illegal_of_no_row {w : Word} (h : ∀ op : Op, ¬ op.row.hits w = true) :
    ∃ why, decode w = .illegal why := by
  rw [decode]
  split
  next r hfind =>
    obtain ⟨op, -, hhit⟩ := exists_op_of_find hfind
    exact absurd hhit (h op)
  next =>
    split
    · exact ⟨_, rfl⟩
    · exact ⟨_, rfl⟩

theorem decode_illegal_iff {w : Word} :
    (∃ why, decode w = .illegal why) ↔
      ∀ op : Op, op.row.hits w = true → ∃ why, fieldsOf w op = .illegal why := by
  constructor
  · rintro ⟨why, h⟩ op hhit
    exact ⟨why, decode_of_row_hits hhit ▸ h⟩
  · intro h
    by_cases hhit : ∃ op : Op, op.row.hits w = true
    · obtain ⟨op, hop⟩ := hhit
      rw [decode_of_row_hits hop]
      exact h op hop
    · exact decode_illegal_of_no_row (not_exists.1 hhit)

/-! ### Operand fields with illegal values -/

/-- The operand values a format's fields can hold and R78 makes illegal. -/
def Op.IllegalOperand (w : Word) : Op → Prop
  | .apb => 16 < slice w 20 16
  | .ecnt => slice w 27 26 = 3
  | .capq => 4 < slice w 2 0
  | .clr | .apr | .pad | .enum | .ealn | .ebyt | .ebest => False

theorem toNat_extractLsb'_eq_slice (w : Word) (hi lo : Nat) :
    (w.extractLsb' lo (hi + 1 - lo)).toNat = slice w hi lo := by
  rw [BitVec.extractLsb'_toNat, Nat.shiftRight_eq_div_pow, slice]

theorem toNat_fieldCNT (w : Word) : (fieldCNT w).toNat = slice w 20 16 := toNat_extractLsb'_eq_slice w 20 16

theorem toNat_fieldMODE (w : Word) : (fieldMODE w).toNat = slice w 27 26 := toNat_extractLsb'_eq_slice w 27 26

theorem toNat_fieldTBL (w : Word) : (fieldTBL w).toNat = slice w 2 0 := toNat_extractLsb'_eq_slice w 2 0

theorem Mode.ofCode_eq_none : ∀ {c : BitVec 2}, Mode.ofCode c = none ↔ c.toNat = 3 := by decide

theorem TblSel.ofCode_eq_none : ∀ {c : BitVec 3}, TblSel.ofCode c = none ↔ 4 < c.toNat := by decide

theorem fieldsOf_illegal_iff {w : Word} {op : Op} :
    (∃ why, fieldsOf w op = .illegal why) ↔ op.IllegalOperand w := by
  cases op with
  | apb =>
    rw [Op.IllegalOperand, ← toNat_fieldCNT, fieldsOf]
    split
    next h => exact iff_of_true ⟨_, rfl⟩ h
    next h => exact iff_of_false (by simp) h
  | ecnt =>
    rw [Op.IllegalOperand, ← toNat_fieldMODE, ← Mode.ofCode_eq_none, fieldsOf]
    cases Mode.ofCode (fieldMODE w) <;> simp
  | capq =>
    rw [Op.IllegalOperand, ← toNat_fieldTBL, ← TblSel.ofCode_eq_none, fieldsOf]
    cases TblSel.ofCode (fieldTBL w) <;> simp
  | clr | apr | pad | enum | ealn | ebyt | ebest => simp [fieldsOf, Op.IllegalOperand]

/-- Under a command's opcode R78's list says that a reserved bit is set or the operand is illegal. -/
theorem illegalWord_iff_of_code {w : Word} {op : Op} (h : slice w 31 28 = op.code) :
    IllegalWord w ↔ (FieldsZero w op.reserved → op.IllegalOperand w) := by
  cases op <;> simp [IllegalWord, h, Op.code, Op.reserved, Op.IllegalOperand, imp_iff_not_or, or_assoc]

/-- An opcode is a command's, or reserved. -/
theorem exists_code_or_reserved (w : Word) :
    (∃ op : Op, slice w 31 28 = op.code) ∨ slice w 31 28 = 0 ∨ 0xB ≤ slice w 31 28 := by
  generalize slice w 31 28 = opc
  by_cases h : 1 ≤ opc ∧ opc ≤ 0xA
  · obtain ⟨hlo, hhi⟩ := h
    refine .inl ?_
    interval_cases opc
    exacts [⟨.clr, rfl⟩, ⟨.apb, rfl⟩, ⟨.apr, rfl⟩, ⟨.ecnt, rfl⟩, ⟨.pad, rfl⟩, ⟨.enum, rfl⟩, ⟨.ealn, rfl⟩,
      ⟨.ebyt, rfl⟩, ⟨.ebest, rfl⟩, ⟨.capq, rfl⟩]
  · omega

/-- R78's list, command by command: a word that hits a command's row has an illegal operand. -/
theorem illegalWord_iff {w : Word} :
    IllegalWord w ↔ ∀ op : Op, op.row.hits w = true → op.IllegalOperand w := by
  constructor
  · intro h op hhit
    obtain ⟨hcode, hzero⟩ := Op.row_hits_iff.1 hhit
    exact (illegalWord_iff_of_code hcode).1 h hzero
  · intro h
    obtain ⟨op, hcode⟩ | hres | hres := exists_code_or_reserved w
    · exact (illegalWord_iff_of_code hcode).2 fun hzero => h op (Op.row_hits_iff.2 ⟨hcode, hzero⟩)
    · exact .inl hres
    · exact .inr (.inl hres)

theorem decode_illegal_iff_illegalWord {w : Word} : (∃ why, decode w = .illegal why) ↔ IllegalWord w := by
  simp only [decode_illegal_iff, illegalWord_iff, fieldsOf_illegal_iff]

namespace Machine

/-! ### The core's step on an illegal word -/

theorem takeTurn_core_of_pend {s : State} {w : Word} (h : s.pend = some w) : takeTurn .core s = runWord w s := by
  simp only [takeTurn, coreTurn, h]

theorem runWord_of_illegalWord {w : Word} (h : IllegalWord w) (s : State) :
    runWord w s = .next (s.complete .illegal) := by
  obtain ⟨i, hok, -⟩ | ⟨-, -, hr⟩ := runWord_cases w s
  · obtain ⟨why, hill⟩ := decode_illegal_iff_illegalWord.2 h
    rw [hok] at hill
    cases hill
  · exact hr

end Machine

end Sys2Proof
end

section
/-! SUPPORT. `APB` where there is room, and what the pseudo-instructions expand to (40_bitstream.md R101,
30_encoding.md R82). -/

namespace Sys2Proof.Machine

theorem appendOrRange_of_room {b : Bits} {s : State} (h : s.bitLen + b.length ≤ 8 * s.cfg.bufBytes) :
    appendOrRange b s = .next ((s.append b).complete .ok) :=
  if_pos (room_iff.2 h)

/-- With room `APB` appends the first `CNT` bits of `VAL`. -/
theorem exec_apb_of_room {cnt : BitVec 5} {val : Half} {s : State} (hcnt : cnt.toNat ≤ 16)
    (hroom : s.bitLen + cnt.toNat ≤ 8 * s.cfg.bufBytes) :
    exec (.apb cnt val) s = .next ((s.append ((bits 16 val.toNat).take cnt.toNat)).complete .ok) := by
  rw [exec, execApb, if_neg (by omega)]
  refine appendOrRange_of_room ?_
  rwa [List.length_take, length_bits, min_eq_left hcnt]

/-- The first `c` bits of a value shifted left by `k` are the value in `c` bits. -/
theorem take_bits_shiftLeft (c k v : Nat) : (bits (c + k) (v <<< k)).take c = bits c v := by
  induction c with
  | zero => rfl
  | succ c ih => simp [Nat.add_right_comm c 1 k, bits, ih]

theorem execAll_singleton (i : Instr) (s : State) : execAll [i] s = exec i s := by
  rw [execAll]
  cases exec i s <;> rfl

/-- The one `APB` of an accepted `APBV`. -/
theorem expand_apbv {cnt v : Nat} (hcnt : cnt ≤ 16) (hv : v < 2 ^ cnt) :
    (Pseudo.apbv cnt v).expand = some [.apb (BitVec.ofNat 5 cnt) (BitVec.ofNat 16 (v <<< (16 - cnt)))] :=
  if_pos ⟨hcnt, hv⟩

theorem expand_apbv_refused {cnt v : Nat} (h : ¬ (cnt ≤ 16 ∧ v < 2 ^ cnt)) : (Pseudo.apbv cnt v).expand = none :=
  if_neg h

/-- Where an accepted `APBV` has room, its expansion appends `v` in `cnt` bits. -/
theorem execAll_expand_apbv {cnt v : Nat} {s : State} (hcnt : cnt ≤ 16) (hv : v < 2 ^ cnt)
    (hroom : s.bitLen + cnt ≤ 8 * s.cfg.bufBytes) :
    ∃ l, (Pseudo.apbv cnt v).expand = some l ∧ execAll l s = .next ((s.append (bits cnt v)).complete .ok) := by
  have hcount : (BitVec.ofNat 5 cnt).toNat = cnt := Nat.mod_eq_of_lt (by omega)
  have hfit : v <<< (16 - cnt) < 2 ^ 16 := by
    have h := Nat.shiftLeft_lt (m := 16 - cnt) hv
    rwa [Nat.add_sub_cancel' hcnt] at h
  have hbits : (bits 16 (v <<< (16 - cnt))).take cnt = bits cnt v := by
    have h := take_bits_shiftLeft cnt (16 - cnt) v
    rwa [Nat.add_sub_cancel' hcnt] at h
  refine ⟨_, expand_apbv hcnt hv, ?_⟩
  rw [execAll_singleton, exec_apb_of_room (by rwa [hcount]) (by rwa [hcount]), hcount, BitVec.toNat_ofNat,
    Nat.mod_eq_of_lt hfit, hbits]

/-- `MODEI` is the `APBV` of the mode indicator. -/
theorem expand_modei (m : Mode) :
    ∃ v < 2 ^ 4, modeIndicator m = bits 4 v ∧ (Pseudo.modei m).expand = (Pseudo.apbv 4 v).expand := by
  cases m with
  | num => exact ⟨0b0001, by decide, rfl, rfl⟩
  | aln => exact ⟨0b0010, by decide, rfl, rfl⟩
  | byt => exact ⟨0b0100, by decide, rfl, rfl⟩

end Sys2Proof.Machine
end

section
/-! SUPPORT. The statements about the encoding (30_encoding.md). -/

namespace Sys2Proof.Proofs

open Sys2Proof.Machine

/-- Settles O3: a word hits the row of at most one command, whose fields then decide. -/
theorem illegalWordsAreExactlyThoseOfTheSpec : Obligations.IllegalWordsAreExactlyThoseOfTheSpec :=
  ⟨fun _ => decode_illegal_iff_illegalWord,
    fun s _ hpend hill => (takeTurn_core_of_pend hpend).trans (runWord_of_illegalWord hill s), rfl⟩

/-- Settles O59: `MODEI` is an `APBV`, and the shift of `APBV` puts `v` where `APB` takes its bits from. -/
theorem pseudoInstructionsExpand : Obligations.PseudoInstructionsExpand := by
  refine ⟨fun cnt v s hcnt hv hroom => execAll_expand_apbv hcnt hv hroom, fun cnt v => expand_apbv_refused,
    fun m s hroom => ?_, rfl⟩
  obtain ⟨v, hv, hind, hexp⟩ := expand_modei m
  rw [hind, hexp]
  exact execAll_expand_apbv (by omega) hv hroom

end Sys2Proof.Proofs
end

section
/-! SUPPORT. A bit of `BUF` by its stream index, and what an append leaves of it (10_state.md R22,
40_bitstream.md R102). -/

namespace Sys2Proof.Machine

/-- The bit of `BUF` at stream index `p`. -/
theorem State.getLsbD_bufByte_div (s : State) (p : Nat) :
    (s.bufByte (p / 8)).getLsbD (7 - p % 8) = s.streamBit p := by
  rw [s.getLsbD_bufByte (p / 8) (by omega), Nat.div_add_mod]

theorem State.streamBit_of_ge {s : State} {p : Nat} (h : s.bitLen ≤ p) : s.streamBit p = false :=
  List.getD_eq_default _ _ h

@[simp] theorem State.complete_streamBit (s : State) (e : ErrCode) (p : Nat) :
    (s.complete e).streamBit p = s.streamBit p := rfl

theorem State.append_streamBit_of_lt {s : State} {p : Nat} (h : p < s.bitLen) (b : Bits) :
    (s.append b).streamBit p = s.streamBit p :=
  List.getD_append _ _ _ _ h

/-- The bits appended stand from the old end on. -/
theorem State.append_streamBit_add (s : State) (b : Bits) (k : Nat) :
    (s.append b).streamBit (s.bitLen + k) = b.getD k false := by
  rw [State.streamBit, State.append_stream, State.bitLen, List.getD_append_right _ _ _ _ (Nat.le_add_right ..),
    Nat.add_sub_cancel_left]

@[simp] theorem State.append_nil (s : State) : s.append [] = s := by
  simp [State.append]

/-- A command that leaves a stream within the buffer keeps the invariant. -/
theorem State.Inv.setStream_complete {s : State} (h : s.Inv) {b : Bits} (hb : b.length ≤ 8 * s.cfg.bufBytes)
    (e : ErrCode) : ((s.setStream b).complete e).Inv where
  params := h.params
  fits := hb
  canonical := h.canonical
  inside := h.inside
  cleared := by simp

end Sys2Proof.Machine
end

section
/-! SUPPORT. The appending commands only append (10_state.md R21 a, 40_bitstream.md R102). -/

namespace Sys2Proof.Machine

/-- `t` is `s` with its command completed and bits, perhaps none, appended to the stream. -/
def State.CompletesAppend (s t : State) : Prop := ∃ b e, t = (s.append b).complete e

theorem completesAppend_of_raise {e : ErrCode} {s t : State} (h : raise e s = .next t) : s.CompletesAppend t :=
  ⟨[], e, by rw [s.append_nil, raise_next.1 h]⟩

theorem completesAppend_of_appendOrRange {b : Bits} {s t : State} (h : appendOrRange b s = .next t) :
    s.CompletesAppend t := by
  obtain ⟨-, rfl⟩ | ⟨-, rfl⟩ := appendOrRange_next h
  · exact ⟨b, .ok, rfl⟩
  · exact ⟨[], .range, by rw [s.append_nil]⟩

theorem completesAppend_of_execApb {cnt : BitVec 5} {val : Half} {s t : State} (h : execApb cnt val s = .next t) :
    s.CompletesAppend t := by
  unfold execApb at h
  split at h
  · exact completesAppend_of_raise h
  · exact completesAppend_of_appendOrRange h

theorem completesAppend_of_execApr {n : Half} {s t : State} (h : execApr n s = .next t) : s.CompletesAppend t := by
  unfold execApr at h
  split at h
  · exact completesAppend_of_raise h
  split at h
  · exact completesAppend_of_raise h
  split at h
  · exact completesAppend_of_raise h
  split at h
  · cases h
  · exact ⟨_, .ok, succeed_next.1 h⟩

theorem completesAppend_of_execEcnt {m : Mode} {ver : BitVec 6} {count : Half} {s t : State}
    (h : execEcnt m ver count s = .next t) : s.CompletesAppend t := by
  unfold execEcnt at h
  split at h
  · exact completesAppend_of_raise h
  split at h
  · exact completesAppend_of_raise h
  · exact completesAppend_of_appendOrRange h

/-- The terminator, the alignment and the pattern all come after the bits there were. -/
theorem exists_padTo_eq_append (b : Bits) (target : Nat) : ∃ r, padTo b target = b ++ r := by
  simp only [padTo, List.append_assoc]
  exact ⟨_, rfl⟩

theorem completesAppend_of_execPad {tgt : Half} {s t : State} (h : execPad tgt s = .next t) :
    s.CompletesAppend t := by
  unfold execPad at h
  split at h
  · exact completesAppend_of_raise h
  split at h
  · exact completesAppend_of_raise h
  · obtain ⟨b, hb⟩ := exists_padTo_eq_append s.stream (8 * tgt.toNat)
    rw [hb] at h
    exact ⟨b, .ok, succeed_next.1 h⟩

theorem completesAppend_of_exec {i : Instr} {s t : State} (hi : isAppend i = true) (h : exec i s = .next t) :
    s.CompletesAppend t := by
  cases i with
  | apb => exact completesAppend_of_execApb h
  | apr => exact completesAppend_of_execApr h
  | ecnt => exact completesAppend_of_execEcnt h
  | pad => exact completesAppend_of_execPad h
  | clr | enum | ealn | ebyt | ebest | capq => cases hi

end Sys2Proof.Machine
end

section
/-! SUPPORT. What `APB` and `APR` answer, case by case, and the bits they append (40_bitstream.md R101, R104, R105). -/

namespace Sys2Proof.Machine

/-- The first `n` bits of a sequence, written out by index. -/
theorem take_eq_map_range {b : Bits} {f : Nat → Bool} {n : Nat} (h : ∀ k < n, b[k]? = some (f k)) :
    b.take n = (List.range n).map f := by
  refine List.ext_getElem? fun k => ?_
  obtain hk | hk := Nat.lt_or_ge k n
  · simp [List.getElem?_take_of_lt hk, List.getElem?_range hk, h k hk]
  · simp [hk]

/-- The first bits of a 16-bit field are its bits 15, 14, ... -/
theorem take_bits_toNat (val : Half) {n : Nat} (hn : n ≤ 16) :
    (bits 16 val.toNat).take n = (List.range n).map (fun k => val.getLsbD (15 - k)) :=
  take_eq_map_range fun _ hk => getElem?_bits (hk.trans_le hn)

/-- The first bits of a byte sequence, each byte from its bit 7 down. -/
theorem take_byteBits {d : List Byte} {n : Nat} (hn : n ≤ 8 * d.length) :
    (byteBits d).take n = (List.range n).map (fun k => (d.getD (k / 8) 0).getLsbD (7 - k % 8)) := by
  refine take_eq_map_range fun k hk => ?_
  have hbyte : k / 8 < d.length := by omega
  rw [getElem?_byteBits (hk.trans_le hn), List.getElem?_eq_getElem hbyte, List.getD_eq_getElem _ _ hbyte,
    Option.map_some]

theorem appendOrRange_of_no_room {b : Bits} {s : State} (h : 8 * s.cfg.bufBytes < s.bitLen + b.length) :
    appendOrRange b s = .next (s.complete .range) :=
  if_neg fun hroom => h.not_ge (room_iff.1 hroom)

theorem exec_apb_of_cnt_over_16 {cnt : BitVec 5} (h : 16 < cnt.toNat) (val : Half) (s : State) :
    exec (.apb cnt val) s = .next (s.complete .illegal) :=
  if_pos h

theorem exec_apb_of_no_room {cnt : BitVec 5} {val : Half} {s : State} (hcnt : cnt.toNat ≤ 16)
    (hroom : 8 * s.cfg.bufBytes < s.bitLen + cnt.toNat) :
    exec (.apb cnt val) s = .next (s.complete .range) := by
  rw [exec, execApb, if_neg (by omega)]
  refine appendOrRange_of_no_room ?_
  rwa [List.length_take, length_bits, min_eq_left hcnt]

/-- `APB` of `v` in the top bits of `VAL`, as R103 gives it, appends `v` in `cnt` bits where there is room. -/
theorem exec_apb_shifted {cnt v : Nat} {s : State} (hcnt : cnt ≤ 16) (hv : v < 2 ^ cnt)
    (hroom : s.bitLen + cnt ≤ 8 * s.cfg.bufBytes) :
    exec (.apb (BitVec.ofNat 5 cnt) (BitVec.ofNat 16 (v <<< (16 - cnt)))) s =
      .next ((s.append (bits cnt v)).complete .ok) := by
  obtain ⟨l, hl, hrun⟩ := execAll_expand_apbv hcnt hv hroom
  cases (expand_apbv hcnt hv).symm.trans hl
  rwa [execAll_singleton] at hrun

theorem exec_apr_of_bad_descriptor {s : State} (h : s.cfg.inBytes < s.srcOff.toNat + s.srcLen.toNat) (n : Half) :
    exec (.apr n) s = .next (s.complete .illegal) := by
  have hfits : s.srcFits = false := Bool.eq_false_iff.2 fun hf => h.not_ge (srcFits_iff.1 hf)
  rw [exec, execApr, hfits]
  rfl

/-- With a legal descriptor, both limits of R105 are checked before any byte is read. -/
theorem exec_apr_of_over_limit {n : Half} {s : State} (hdesc : s.srcOff.toNat + s.srcLen.toNat ≤ s.cfg.inBytes)
    (h : 8 * s.srcLen.toNat < n.toNat ∨ 8 * s.cfg.bufBytes < s.bitLen + n.toNat) :
    exec (.apr n) s = .next (s.complete .range) := by
  rw [exec, execApr, srcFits_iff.2 hdesc, Bool.not_true, if_neg Bool.false_ne_true]
  split
  next => rfl
  next hsrc =>
    have hroom : s.room n.toNat = false :=
      Bool.eq_false_iff.2 fun hr => (h.resolve_left hsrc).not_ge (room_iff.1 hr)
    rw [hroom]
    rfl

/-- Within both limits and with the contributing bytes `d` written, `APR` appends their first bits. -/
theorem exec_apr_of_written {n : Half} {s : State} {d : List Byte}
    (hdesc : s.srcOff.toNat + s.srcLen.toNat ≤ s.cfg.inBytes) (hsrc : n.toNat ≤ 8 * s.srcLen.toNat)
    (hroom : s.bitLen + n.toNat ≤ 8 * s.cfg.bufBytes) (hlen : d.length = bytesFor n.toNat)
    (hread : ∀ k, k < d.length → s.inMem.read (s.srcOff.toNat + k) = d[k]?) :
    exec (.apr n) s = .next ((s.append ((byteBits d).take n.toNat)).complete .ok) := by
  have hbytes : s.readSrc (bytesFor n.toNat) = .bytes d :=
    Memory.readBytes_bytes.2 ⟨hlen, fun k hk => hread k (hlen ▸ hk)⟩
  rw [exec, execApr, srcFits_iff.2 hdesc, room_iff.2 hroom, hbytes, if_neg (by decide), if_neg hsrc.not_gt,
    if_neg (by decide)]
  rfl

end Sys2Proof.Machine
end

section
/-! SUPPORT. The statements about the bit stream (40_bitstream.md). -/

namespace Sys2Proof.Proofs

open Sys2Proof.Machine

/-- Settles O22: an appending command is `State.append` with some bits, which touches no bit before the old end. -/
theorem appendsKeepTheEarlierBits : Obligations.AppendsKeepTheEarlierBits := by
  intro i s t hi h
  obtain ⟨b, e, rfl⟩ := completesAppend_of_exec hi h
  refine ⟨by simp, fun p hp => ?_, fun p hp => ?_⟩
  · rw [State.getLsbD_bufByte_div, State.getLsbD_bufByte_div, State.complete_streamBit,
      State.append_streamBit_of_lt hp]
  · rw [State.getLsbD_bufByte_div, State.streamBit_of_ge hp]

/-- Settles O23: success means there was room, and then `v` in `cnt` bits stands at the old end. -/
theorem appendedValueReadsBack : Obligations.AppendedValueReadsBack := by
  intro s t cnt v hinv hcnt hv h herr
  have hcount : (BitVec.ofNat 5 cnt).toNat = cnt := Nat.mod_eq_of_lt (by omega)
  have hroom : s.bitLen + cnt ≤ 8 * s.cfg.bufBytes := by
    by_contra hno
    cases (exec_apb_of_no_room (by rwa [hcount]) (by rw [hcount]; omega)).symm.trans h
    cases herr
  cases (exec_apb_shifted hcnt hv hroom).symm.trans h
  have hlen : (s.append (bits cnt v)).bitLen = s.bitLen + cnt := by simp
  have hinv' : ((s.append (bits cnt v)).complete .ok).Inv :=
    hinv.setStream_complete (hlen.trans_le hroom) .ok
  refine ⟨hlen, fun k hk => ?_, ?_, fun p hp => ?_⟩
  · rw [State.getLsbD_bufByte_div, State.complete_streamBit, State.append_streamBit_add, List.getD_eq_getElem?_getD,
      getElem?_bits hk, Option.getD_some]
  · rw [toNat_readReg_outlen hinv', State.outLen, State.complete_bitLen, hlen]
  · rw [State.getLsbD_bufByte_div, State.complete_streamBit, State.streamBit_of_ge (hlen.trans_le hp)]

/-- Settles O24: `CLR` is the completion of the state with the empty stream. -/
theorem clrEmptiesTheStream : Obligations.ClrEmptiesTheStream := fun _ => rfl

/-- Settles O25: one lemma for each of `APB`'s three outcomes. -/
theorem apbAppendsTheTopBits : Obligations.ApbAppendsTheTopBits := by
  refine fun cnt val s => ⟨fun hcnt hroom => ?_, fun h => exec_apb_of_cnt_over_16 h val s, exec_apb_of_no_room⟩
  rw [exec_apb_of_room hcnt hroom, take_bits_toNat val hcnt]
  rfl

/-- Settles O26: the contributing bytes hold at least `BITS` bits, each of which is one of its byte's. -/
theorem aprAppendsTheSourceBits : Obligations.AprAppendsTheSourceBits := by
  intro n s d hdesc hsrc hroom hlen hread
  rw [exec_apr_of_written hdesc hsrc hroom hlen hread, take_byteBits (by omega)]
  rfl

/-- Settles O27: the descriptor is checked first, then both limits. -/
theorem aprErrors : Obligations.AprErrors := fun n _ =>
  ⟨fun hdesc => exec_apr_of_bad_descriptor hdesc n, exec_apr_of_over_limit⟩

end Sys2Proof.Proofs
end

section
/-! SUPPORT. The version bands and count widths, and what `ECNT` answers, case by case (41_count.md R120, R121, R123). -/

namespace Sys2Proof.Machine

theorem versionOk_eq_false {ver : BitVec 6} (h : ver.toNat = 0 ∨ 41 ≤ ver.toNat) : versionOk ver = false :=
  Bool.eq_false_iff.2 fun hok => by
    have hrange := versionOk_iff.1 hok
    omega

/-- On a valid version `byBand` is the choice between the three bands. -/
theorem byBand_of_versionOk {ver : BitVec 6} (h : versionOk ver = true) (a b c : Nat) :
    byBand ver a b c = if ver.toNat ≤ 9 then some a else if ver.toNat ≤ 26 then some b else some c := by
  rw [byBand, h]
  rfl

theorem byBand_small {ver : BitVec 6} (hlo : 1 ≤ ver.toNat) (hhi : ver.toNat ≤ 9) (a b c : Nat) :
    byBand ver a b c = some a := by
  rw [byBand_of_versionOk (versionOk_iff.2 ⟨hlo, by omega⟩), if_pos hhi]

theorem byBand_medium {ver : BitVec 6} (hlo : 10 ≤ ver.toNat) (hhi : ver.toNat ≤ 26) (a b c : Nat) :
    byBand ver a b c = some b := by
  rw [byBand_of_versionOk (versionOk_iff.2 ⟨by omega, by omega⟩), if_neg (by omega), if_pos hhi]

theorem byBand_large {ver : BitVec 6} (hlo : 27 ≤ ver.toNat) (hhi : ver.toNat ≤ 40) (a b c : Nat) :
    byBand ver a b c = some c := by
  rw [byBand_of_versionOk (versionOk_iff.2 ⟨by omega, hhi⟩), if_neg (by omega), if_neg (by omega)]

theorem countWidth_of_bad_version {ver : BitVec 6} (h : ver.toNat = 0 ∨ 41 ≤ ver.toNat) (m : Mode) :
    countWidth m ver = none :=
  countWidth_eq_none.2 (versionOk_eq_false h)

/-- The `w` low bits of a 16-bit field, most significant first, are its bits `w - 1`, `w - 2`, ... -/
theorem bits_toNat (w : Nat) (v : Half) :
    bits w v.toNat = (List.range w).map (fun k => v.getLsbD (w - 1 - k)) := by
  calc bits w v.toNat = (bits w v.toNat).take w := (List.take_of_length_le (length_bits w v.toNat).le).symm
    _ = (List.range w).map (fun k => v.getLsbD (w - 1 - k)) := take_eq_map_range fun _ hk => getElem?_bits hk

/-- Where the count has a field, `ECNT` checks the count against it and then appends. -/
theorem exec_ecnt_of_width {m : Mode} {ver : BitVec 6} {w : Nat} (h : countWidth m ver = some w) (count : Half)
    (s : State) :
    exec (.ecnt m ver count) s =
      if count.toNat ≥ 2 ^ w then raise .range s else appendOrRange (bits w count.toNat) s := by
  rw [exec, execEcnt, h]

theorem exec_ecnt_of_no_width {m : Mode} {ver : BitVec 6} (h : countWidth m ver = none) (count : Half) (s : State) :
    exec (.ecnt m ver count) s = .next (s.complete .version) := by
  rw [exec, execEcnt, h]
  rfl

theorem exec_ecnt_of_too_wide {m : Mode} {ver : BitVec 6} {w : Nat} (h : countWidth m ver = some w) {count : Half}
    (hcount : 2 ^ w ≤ count.toNat) (s : State) :
    exec (.ecnt m ver count) s = .next (s.complete .range) :=
  (exec_ecnt_of_width h count s).trans (if_pos hcount)

theorem exec_ecnt_of_room {m : Mode} {ver : BitVec 6} {w : Nat} (h : countWidth m ver = some w) {count : Half}
    (hcount : count.toNat < 2 ^ w) {s : State} (hroom : s.bitLen + w ≤ 8 * s.cfg.bufBytes) :
    exec (.ecnt m ver count) s = .next ((s.append (bits w count.toNat)).complete .ok) := by
  rw [exec_ecnt_of_width h, if_neg hcount.not_ge]
  exact appendOrRange_of_room (by rwa [length_bits])

/-- A full buffer and a count too wide give the same error. -/
theorem exec_ecnt_of_no_room {m : Mode} {ver : BitVec 6} {w : Nat} (h : countWidth m ver = some w) (count : Half)
    {s : State} (hroom : 8 * s.cfg.bufBytes < s.bitLen + w) :
    exec (.ecnt m ver count) s = .next (s.complete .range) := by
  rw [exec_ecnt_of_width h]
  split
  · rfl
  · exact appendOrRange_of_no_room (by rwa [length_bits])

end Sys2Proof.Machine
end

section
/-! SUPPORT. The statements about the character count (41_count.md). -/

namespace Sys2Proof.Proofs

open Sys2Proof.Machine

/-- Settles O28: each band selects one of a mode's three widths, and an invalid version none. -/
theorem countWidthTable : Obligations.CountWidthTable := by
  refine ⟨fun ver hlo hhi => ?_, fun ver hlo hhi => ?_, fun ver hlo hhi => ?_,
    fun m ver h => countWidth_of_bad_version h m⟩
  · exact ⟨byBand_small hlo hhi .., byBand_small hlo hhi .., byBand_small hlo hhi ..⟩
  · exact ⟨byBand_medium hlo hhi .., byBand_medium hlo hhi .., byBand_medium hlo hhi ..⟩
  · exact ⟨byBand_large hlo hhi .., byBand_large hlo hhi .., byBand_large hlo hhi ..⟩

/-- Settles O29: one lemma for each of `ECNT`'s four outcomes; the field is `bits_w` of the count. -/
theorem ecntAppendsTheCount : Obligations.EcntAppendsTheCount := by
  refine fun m ver count s => ⟨fun w hw hcount hroom => ?_,
    fun h => exec_ecnt_of_no_width (countWidth_of_bad_version h m) count s, fun w hw h => ?_⟩
  · rw [exec_ecnt_of_room hw hcount hroom, bits_toNat]
    rfl
  · obtain hwide | hfull := h
    · exact exec_ecnt_of_too_wide hw hwide s
    · exact exec_ecnt_of_no_room hw count hfull

end Sys2Proof.Proofs
end

section
/-! SUPPORT. The alphanumeric alphabet and the texts of each mode (42_mode_encoders.md R132 to R135). -/

namespace Sys2Proof.Machine

theorem alnAlphabet_nodup : alnAlphabet.Nodup := by decide

/-- Every entry of the alphabet has its place as its value. -/
theorem alnVal_getElem_alnAlphabet : ∀ i : Fin alnAlphabet.length, alnVal alnAlphabet[i] = some i.val := by decide

/-- No byte has a value that is not its place in the alphabet. -/
theorem getElem?_alnAlphabet_of_alnVal : ∀ c : Byte, ∀ v ∈ alnVal c, alnAlphabet[v]? = some c := by decide

theorem alnVal_eq_some_iff {c : Byte} {v : Nat} : alnVal c = some v ↔ alnAlphabet[v]? = some c := by
  refine ⟨getElem?_alnAlphabet_of_alnVal c v, fun h => ?_⟩
  obtain ⟨hv, rfl⟩ := List.getElem?_eq_some_iff.1 h
  exact alnVal_getElem_alnAlphabet ⟨v, hv⟩

theorem alnVal_le {c : Byte} {v : Nat} (h : alnVal c = some v) : v ≤ 44 := by
  obtain ⟨hv, -⟩ := List.getElem?_eq_some_iff.1 (alnVal_eq_some_iff.1 h)
  exact Nat.le_of_lt_succ hv

theorem isSome_alnVal_iff {c : Byte} : (alnVal c).isSome = true ↔ c ∈ alnAlphabet := by
  simp only [Option.isSome_iff_exists, alnVal_eq_some_iff, List.mem_iff_getElem?]

/-- On the alphabet the code of a byte is its place. -/
theorem alnCode_eq_idxOf {c : Byte} (h : c ∈ alnAlphabet) : alnCode c = alnAlphabet.idxOf c := by
  have hval : alnVal c = some (alnAlphabet.idxOf c) := alnVal_eq_some_iff.2 (List.getElem?_idxOf h)
  rw [alnCode, hval, Option.getD_some]

theorem validText_num_iff {t : List Byte} :
    validText .num t = true ↔ ∀ c ∈ t, 0x30 ≤ c.toNat ∧ c.toNat ≤ 0x39 := by
  simp only [validText, List.all_eq_true, isDigit, decide_eq_true_eq]

theorem validText_aln_iff {t : List Byte} : validText .aln t = true ↔ ∀ c ∈ t, c ∈ alnAlphabet := by
  simp only [validText, List.all_eq_true, isSome_alnVal_iff]

end Sys2Proof.Machine
end

section
/-! SUPPORT. The payloads, piece by piece (42_mode_encoders.md R136, R138, R139). -/

namespace Sys2Proof.Machine

theorem flatMap_range_succ {α : Type} (f : Nat → List α) (n : Nat) :
    (List.range (n + 1)).flatMap f = f 0 ++ (List.range n).flatMap (fun k => f (k + 1)) := by
  rw [List.range_succ_eq_map, List.flatMap_cons, List.flatMap_map]

/-- The first digit of a group counts for its place, the rest as a group of its own. -/
theorem groupSum_cons (c : Byte) (g : List Byte) :
    groupSum (c :: g) = digitVal c * 10 ^ g.length + groupSum g := by
  rw [groupSum, List.length_cons, List.range_succ_eq_map, List.map_cons, List.sum_cons, List.map_map]
  congr 3
  funext i
  simp [Nat.sub_sub, Nat.add_comm]

/-- Horner's rule: reading a group after the value `v` shifts `v` by the group's length. -/
theorem foldl_digits_eq (g : List Byte) (v : Nat) :
    g.foldl (fun v c => 10 * v + digitVal c) v = v * 10 ^ g.length + groupSum g := by
  induction g generalizing v with
  | nil => simp [groupSum]
  | cons c g ih => rw [List.foldl_cons, ih, groupSum_cons, List.length_cons]; ring

theorem groupVal_eq_groupSum (g : List Byte) : groupVal g = groupSum g := by
  rw [groupVal, foldl_digits_eq, Nat.zero_mul, Nat.zero_add]

theorem groupDigits_eq_groupSignificant (g : List Byte) : groupDigits g = groupSignificant g := by
  have hsplit : (g.takeWhile (fun c => c == 0x30)).length + (g.dropWhile (fun c => c == 0x30)).length = g.length := by
    rw [← List.length_append, List.takeWhile_append_dropWhile]
  rw [groupDigits, groupSignificant, ← hsplit, Nat.add_sub_cancel_left]
  rfl

/-- The numeric payload is the groups of 3 from the front, in order. -/
theorem numPayload_eq_flatMap : ∀ t : List Byte,
    numPayload t = (List.range ((t.length + 2) / 3)).flatMap (fun k => groupBits ((t.drop (3 * k)).take 3))
  | [] => rfl
  | [a] => by simp [numPayload]
  | [a, b] => by simp [numPayload]
  | a :: b :: c :: rest => by
    have hgroups : ((a :: b :: c :: rest).length + 2) / 3 = (rest.length + 2) / 3 + 1 := by
      simp only [List.length_cons]; omega
    rw [hgroups, flatMap_range_succ, numPayload, numPayload_eq_flatMap rest]
    rfl

/-- The alphanumeric payload of bytes of the alphabet is the pairs in order, then an odd last byte. -/
theorem alnPayload_eq_flatMap : ∀ t : List Byte, (∀ c ∈ t, c ∈ alnAlphabet) →
    alnPayload t =
      (List.range (t.length / 2)).flatMap (fun k =>
        bits 11 (alnAlphabet.idxOf (t.getD (2 * k) 0) * 45 + alnAlphabet.idxOf (t.getD (2 * k + 1) 0))) ++
      (if t.length % 2 = 1 then bits 6 (alnAlphabet.idxOf (t.getD (t.length - 1) 0)) else [])
  | [], _ => rfl
  | [c], h => by
    simp [alnPayload, alnCode_eq_idxOf (h c (by simp))]
  | a :: b :: rest, h => by
    have ha : alnCode a = alnAlphabet.idxOf a := alnCode_eq_idxOf (h a (by simp))
    have hb : alnCode b = alnAlphabet.idxOf b := alnCode_eq_idxOf (h b (by simp))
    have hrest := alnPayload_eq_flatMap rest fun c hc => h c (by simp [hc])
    have hlen : (a :: b :: rest).length = rest.length + 2 := rfl
    have hlast : rest.length % 2 = 1 → (a :: b :: rest).getD (rest.length + 1) 0 = rest.getD (rest.length - 1) 0 := by
      intro hodd
      obtain ⟨n, hn⟩ : ∃ n, rest.length = n + 1 := ⟨rest.length - 1, by omega⟩
      rw [hn]
      rfl
    rw [alnPayload, hrest, ha, hb, hlen, Nat.add_div_right _ two_pos, flatMap_range_succ, List.append_assoc,
      Nat.add_mod_right]
    congr 2
    split
    next hodd => exact congrArg (fun c => bits 6 (alnAlphabet.idxOf c)) (hlast hodd).symm
    next => rfl

theorem getElem?_byteBits_getD {t : List Byte} {k : Nat} (h : k < 8 * t.length) :
    (byteBits t)[k]? = some ((t.getD (k / 8) 0).getLsbD (7 - k % 8)) := by
  rw [← List.getElem?_take_of_lt h, take_byteBits le_rfl, List.getElem?_map, List.getElem?_range h, Option.map_some]

end Sys2Proof.Machine
end

section
/-! SUPPORT. The statements about the character sets and the payloads (42_mode_encoders.md sections 2 and 3). -/

namespace Sys2Proof.Proofs

open Sys2Proof.Machine

/-- Settles O33: every entry has its place as its value, and no other byte has a value. -/
theorem alphanumericValues : Obligations.AlphanumericValues :=
  ⟨rfl, alnAlphabet_nodup, fun _ _ => alnVal_eq_some_iff⟩

/-- Settles O34: validity is a condition on each byte, for the byte mode none. -/
theorem validTexts : Obligations.ValidTexts := fun _ => ⟨validText_num_iff, validText_aln_iff, rfl⟩

/-- Settles O35: the payload goes group by group, and a group's fold and digits left are the spec's sum and count. -/
theorem numericPayloadIsTheGroupsInOrder : Obligations.NumericPayloadIsTheGroupsInOrder := by
  intro t _
  simp only [payload, numPayload_eq_flatMap, groupBits, groupDigits_eq_groupSignificant, groupVal_eq_groupSum]

/-- Settles O37: the payload goes pair by pair, and values of at most 44 keep each field from overflowing. -/
theorem alphanumericPayloadIsThePairsInOrder : Obligations.AlphanumericPayloadIsThePairsInOrder := by
  refine ⟨fun t h => alnPayload_eq_flatMap t (validText_aln_iff.1 h), fun a b va vb ha hb => ?_⟩
  have hva : va ≤ 44 := alnVal_le ha
  have hvb : vb ≤ 44 := alnVal_le hb
  omega

/-- Settles O38: the byte payload is `byteBits` of the text. -/
theorem bytePayloadIsTheBytesInOrder : Obligations.BytePayloadIsTheBytesInOrder := fun t =>
  ⟨length_byteBits t, fun _ => getElem?_byteBits_getD⟩

end Sys2Proof.Proofs
end

section
/-! SUPPORT. The length of a padded segment and the register that shows it (43_padding.md R160, 42_mode_encoders.md
R143). -/

namespace Sys2Proof.Machine

theorem length_padTo {b : Bits} {target : Nat} (hb : b.length ≤ target) (htarget : target % 8 = 0) :
    (padTo b target).length = target := by
  simp only [padTo, List.length_append, List.length_replicate, length_padPat, terminatorLen, alignLen]
  omega

theorem toNat_readReg_outlen_of_lt {s : State} (h : s.outLen < 2 ^ 16) : (s.readReg .outlen).toNat = s.outLen := by
  rw [State.readReg, toNat_place_zero _ (by omega), BitVec.toNat_ofNat, Nat.mod_eq_of_lt h]

theorem State.outLen_of_bitLen {s : State} {n : Nat} (h : s.bitLen = 8 * n) : s.outLen = n := by
  rw [State.outLen, h]
  omega

end Sys2Proof.Machine
end

section
/-! SUPPORT. What `EncodeSeg` and an encode command of one mode answer, case by case (42_mode_encoders.md R141, R142,
60_exceptions.md R182, R184). -/

namespace Sys2Proof.Machine

theorem encodeSeg_of_invalid {m : Mode} {t : List Byte} (h : validText m t = false) (p : Params) (lvl : Level)
    (ver : BitVec 6) : encodeSeg p m lvl ver t = .err .charset := by
  rw [encodeSeg, h]
  rfl

theorem encodeSeg_of_no_width {m : Mode} {ver : BitVec 6} {t : List Byte} (hvalid : validText m t = true)
    (hw : countWidth m ver = none) (p : Params) (lvl : Level) : encodeSeg p m lvl ver t = .err .version := by
  rw [encodeSeg, hvalid, hw]
  rfl

/-- Behind a valid text and version, the count is checked against its field and then the data against the capacity. -/
theorem encodeSeg_of_over_limit {p : Params} {m : Mode} {lvl : Level} {ver : BitVec 6} {t : List Byte} {w : Nat}
    (hvalid : validText m t = true) (hw : countWidth m ver = some w)
    (h : 2 ^ w ≤ t.length ∨ 8 * p.codewords lvl ver.toNat < 4 + w + (payload m t).length) :
    encodeSeg p m lvl ver t = .err .range := by
  rw [← length_segmentData] at h
  rw [encodeSeg, hvalid, hw, Bool.not_true, if_neg Bool.false_ne_true]
  dsimp only
  split
  next => rfl
  next hcount => exact if_pos (h.resolve_left hcount)

theorem encodeSeg_of_fits {p : Params} {m : Mode} {lvl : Level} {ver : BitVec 6} {t : List Byte} {w : Nat}
    (hvalid : validText m t = true) (hw : countWidth m ver = some w) (hcount : t.length < 2 ^ w)
    (hfits : 4 + w + (payload m t).length ≤ 8 * p.codewords lvl ver.toNat) :
    encodeSeg p m lvl ver t = .ok (padTo (segmentData m w t) (8 * p.codewords lvl ver.toNat)) :=
  encodeSeg_ok.2 ⟨hvalid, w, hw, hcount, (length_segmentData m w t).trans_le hfits, rfl⟩

theorem exec_encodeCmd (m : Mode) (lvl : Level) (ver : BitVec 6) (s : State) :
    exec (encodeCmd m lvl ver) s = encodeCommand (encodeSeg s.cfg m lvl ver) s := by
  cases m <;> rfl

theorem exec_encodeCmd_of_ok {m : Mode} {lvl : Level} {ver : BitVec 6} {s : State} {t : List Byte} {b : Bits}
    (hready : s.TextReady t) (h : encodeSeg s.cfg m lvl ver t = .ok b) :
    exec (encodeCmd m lvl ver) s = .next ((s.setStream b).complete .ok) := by
  rw [exec_encodeCmd, encodeCommand_ready hready, h]
  rfl

theorem exec_encodeCmd_of_err {m : Mode} {lvl : Level} {ver : BitVec 6} {s : State} {t : List Byte} {e : ErrCode}
    (hready : s.TextReady t) (h : encodeSeg s.cfg m lvl ver t = .err e) :
    exec (encodeCmd m lvl ver) s = .next ((s.setStream []).complete e) := by
  rw [exec_encodeCmd, encodeCommand_ready hready, h]
  rfl

/-- On an empty descriptor inside the window the text is empty and ready, whatever the window holds. -/
theorem State.textReady_nil {s : State} (hlen : s.srcLen = 0) (hoff : s.srcOff.toNat ≤ s.cfg.inBytes) :
    s.TextReady [] where
  legal := by rwa [hlen]
  length := by rw [hlen]; rfl
  written := by simp [hlen]

end Sys2Proof.Machine
end

section
/-! SUPPORT. What a successful encode command has done (42_mode_encoders.md R142, R143). -/

namespace Sys2Proof.Machine

/-- Success means that the descriptor's text was ready and the encoder made a segment of it. -/
theorem encodeCommand_next_ok {enc : List Byte → SegResult} {s t : State} (hne : ∀ l, enc l ≠ .err .ok)
    (h : encodeCommand enc s = .next t) (herr : t.err = .ok) :
    ∃ l b, s.TextReady l ∧ enc l = .ok b ∧ t = (s.setStream b).complete .ok := by
  obtain ⟨-, rfl⟩ | ⟨l, hready, hc⟩ := encodeCommand_next h
  · cases herr
  · obtain ⟨b, hb, rfl⟩ | ⟨e, he, rfl⟩ := commit_next hc
    · exact ⟨l, b, hready, hb, rfl⟩
    · rw [State.complete_err] at herr
      exact absurd (herr ▸ he) (hne l)

theorem encodeSeg_ne_err_ok (p : Params) (m : Mode) (lvl : Level) (ver : BitVec 6) (t : List Byte) :
    encodeSeg p m lvl ver t ≠ .err .ok := by
  intro h
  obtain h | h | h := encodeSeg_err h
  all_goals cases h

theorem encodeBest_ne_err_ok (p : Params) (lvl : Level) (ver : BitVec 6) (t : List Byte) :
    encodeBest p lvl ver t ≠ .err .ok := by
  rw [encodeBest_cases]
  split
  all_goals exact fun h => nomatch h

/-- What the selector makes is the segment of one of the modes. -/
theorem exists_encodeSeg_of_encodeBest_ok {p : Params} {lvl : Level} {ver : BitVec 6} {t : List Byte} {b : Bits}
    (h : encodeBest p lvl ver t = .ok b) : ∃ m, encodeSeg p m lvl ver t = .ok b := by
  rw [encodeBest_cases] at h
  split at h
  next hnum => exact ⟨.num, hnum.trans h⟩
  next haln => exact ⟨.aln, haln.trans h⟩
  next hbyt => exact ⟨.byt, hbyt.trans h⟩
  next => cases h

theorem length_of_encodeSeg_ok {p : Params} {m : Mode} {lvl : Level} {ver : BitVec 6} {t : List Byte} {b : Bits}
    (h : encodeSeg p m lvl ver t = .ok b) : b.length = 8 * p.codewords lvl ver.toNat := by
  obtain ⟨-, w, -, -, hfits, rfl⟩ := encodeSeg_ok.1 h
  exact length_padTo hfits (Nat.mul_mod_right ..)

/-- A successful `ENUM`, `EALN` or `EBYT` leaves the segment of the descriptor's text. -/
theorem exec_encodeCmd_next_ok {m : Mode} {lvl : Level} {ver : BitVec 6} {s t : State}
    (h : exec (encodeCmd m lvl ver) s = .next t) (herr : t.err = .ok) :
    ∃ l b, s.TextReady l ∧ encodeSeg s.cfg m lvl ver l = .ok b ∧ t = (s.setStream b).complete .ok :=
  encodeCommand_next_ok (encodeSeg_ne_err_ok s.cfg m lvl ver) ((exec_encodeCmd m lvl ver s).symm.trans h) herr

/-- A successful `EBEST` leaves the segment of one of the modes. -/
theorem exec_ebest_next_ok {lvl : Level} {ver : BitVec 6} {s t : State} (h : exec (.ebest lvl ver) s = .next t)
    (herr : t.err = .ok) :
    ∃ m l b, encodeSeg s.cfg m lvl ver l = .ok b ∧ t = (s.setStream b).complete .ok := by
  obtain ⟨l, b, -, hb, rfl⟩ := encodeCommand_next_ok (encodeBest_ne_err_ok s.cfg lvl ver) h herr
  obtain ⟨m, hm⟩ := exists_encodeSeg_of_encodeBest_ok hb
  exact ⟨m, l, b, hm, rfl⟩

theorem exec_encode_next_ok {i : Instr} {lvl : Level} {ver : BitVec 6} {s t : State}
    (hi : encodeArgs i = some (lvl, ver)) (h : exec i s = .next t) (herr : t.err = .ok) :
    ∃ m l b, encodeSeg s.cfg m lvl ver l = .ok b ∧ t = (s.setStream b).complete .ok := by
  have hmode : ∀ m, exec (encodeCmd m lvl ver) s = .next t →
      ∃ m l b, encodeSeg s.cfg m lvl ver l = .ok b ∧ t = (s.setStream b).complete .ok := fun m hm => by
    obtain ⟨l, b, -, hb, rfl⟩ := exec_encodeCmd_next_ok hm herr
    exact ⟨m, l, b, hb, rfl⟩
  cases i with
  | enum => cases hi; exact hmode .num h
  | ealn => cases hi; exact hmode .aln h
  | ebyt => cases hi; exact hmode .byt h
  | ebest => cases hi; exact exec_ebest_next_ok h herr
  | clr | apb | apr | ecnt | pad | capq => cases hi

end Sys2Proof.Machine
end

section
/-! SUPPORT. The first bits of a segment (42_mode_encoders.md R131, R141). -/

namespace Sys2Proof.Machine

/-- A padded segment is its mode indicator, its count and more bits. -/
theorem exists_padTo_segmentData_eq (m : Mode) (w : Nat) (t : List Byte) (target : Nat) :
    ∃ r, padTo (segmentData m w t) target = modeIndicator m ++ (bits w t.length ++ r) := by
  obtain ⟨r, hr⟩ := exists_padTo_eq_append (segmentData m w t) target
  exact ⟨payload m t ++ r, by rw [hr, segmentData, List.append_assoc, List.append_assoc]⟩

theorem take_modeIndicator_append (m : Mode) (r : Bits) : (modeIndicator m ++ r).take 4 = modeIndicator m :=
  List.take_left' (length_modeIndicator m)

/-- The bits behind the mode indicator are the count, most significant bit first. -/
theorem getD_count {w k : Nat} (hk : k < w) (m : Mode) (n : Nat) (r : Bits) :
    (modeIndicator m ++ (bits w n ++ r)).getD (4 + k) false = n.testBit (w - 1 - k) := by
  have hcount : k < (bits w n).length := by rwa [length_bits]
  rw [List.getD_append_right _ _ _ _ (by simp), length_modeIndicator, Nat.add_sub_cancel_left,
    List.getD_append _ _ _ _ hcount, List.getD_eq_getElem?_getD, getElem?_bits hk, Option.getD_some]

theorem bits_zero (w : Nat) : bits w 0 = List.replicate w false := by
  induction w with
  | zero => rfl
  | succ w ih => rw [bits, ih, Nat.zero_testBit, List.replicate_succ]

end Sys2Proof.Machine
end

section
/-! SUPPORT. The statements about the encode commands (42_mode_encoders.md sections 4 and 5). -/

namespace Sys2Proof.Proofs

open Sys2Proof.Machine

/-- Settles O39: the commit of the segment that `EncodeSeg` makes of a text that passes its checks. -/
theorem encodeCommandsBuildTheSegment : Obligations.EncodeCommandsBuildTheSegment :=
  fun _ _ _ _ _ _ hready hvalid hw hcount hfits =>
    exec_encodeCmd_of_ok hready (encodeSeg_of_fits hvalid hw hcount hfits)

/-- Settles O40: the commit of the error of the first check that fails. -/
theorem encodeErrorsInOrder : Obligations.EncodeErrorsInOrder := fun m lvl ver s _ hready =>
  ⟨fun hinvalid => exec_encodeCmd_of_err hready (encodeSeg_of_invalid hinvalid s.cfg lvl ver),
    fun hvalid hver =>
      exec_encodeCmd_of_err hready (encodeSeg_of_no_width hvalid (countWidth_of_bad_version hver m) s.cfg lvl),
    fun _ hvalid hw h => exec_encodeCmd_of_err hready (encodeSeg_of_over_limit hvalid hw h)⟩

/-- Settles O41: the stream is a segment, which is padded to the capacity; `T_DC` entries fit the 16-bit register. -/
theorem encodedLengthIsTheCapacity : Obligations.EncodedLengthIsTheCapacity := by
  intro i lvl ver s t _ hi h herr
  obtain ⟨m, l, b, hb, rfl⟩ := exec_encode_next_ok hi h herr
  have hlen : ((s.setStream b).complete .ok).bitLen = 8 * s.cfg.codewords lvl ver.toNat := length_of_encodeSeg_ok hb
  have hout : ((s.setStream b).complete .ok).outLen = s.cfg.codewords lvl ver.toNat := State.outLen_of_bitLen hlen
  refine ⟨hlen, ?_⟩
  rw [toNat_readReg_outlen_of_lt (hout.trans_lt (BitVec.isLt _)), hout]

/-- Settles O43: the stream is a segment, whose count is that of the ready text, `SRC_LEN`. -/
theorem segmentBeginsWithModeAndCount : Obligations.SegmentBeginsWithModeAndCount := by
  intro m lvl ver s t h herr
  obtain ⟨l, b, hready, hb, rfl⟩ := exec_encodeCmd_next_ok h herr
  obtain ⟨-, w, hw, hcount, -, rfl⟩ := encodeSeg_ok.1 hb
  obtain ⟨r, hr⟩ := exists_padTo_segmentData_eq m w l (8 * s.cfg.codewords lvl ver.toNat)
  rw [hr, hready.length]
  refine ⟨?_, w, hw, hready.length ▸ hcount, ?_, fun k hk => getD_count hk m s.srcLen.toNat r⟩
  · rw [State.complete_stream, State.setStream_stream, take_modeIndicator_append]
    cases m <;> rfl
  · simp

/-- Settles O44: the empty text is ready, and a count of 0 is `w` zeros. -/
theorem emptyTextIsValid : Obligations.EmptyTextIsValid := by
  have hempty : ∀ m : Mode, validText m [] = true ∧ payload m [] = [] := fun m => by cases m <;> exact ⟨rfl, rfl⟩
  refine ⟨hempty, fun m lvl ver s w hlen hoff hw hfits => ?_⟩
  obtain ⟨hvalid, hpayload⟩ := hempty m
  have hseg : segmentData m w [] = modeIndicator m ++ List.replicate w false := by
    rw [segmentData, hpayload, List.append_nil, List.length_nil, bits_zero]
  rw [exec_encodeCmd_of_ok (State.textReady_nil hlen hoff)
    (encodeSeg_of_fits hvalid hw (Nat.two_pow_pos w) (by simpa [hpayload] using hfits)), hseg]
  rfl

end Sys2Proof.Proofs
end

section
/-! SUPPORT. `PadTo` bit by bit: the stream, zeros up to a byte boundary, the pattern (43_padding.md R160, R161). -/

namespace Sys2Proof.Machine

/-- Where the pattern begins: the byte boundary at or behind the terminator's end (43_padding.md R160 steps 1 and 2). -/
def padPatStart (len target : Nat) : Nat :=
  len + terminatorLen len target + alignLen (len + terminatorLen len target)

theorem padPatStart_mod (len target : Nat) : padPatStart len target % 8 = 0 := by
  simp only [padPatStart, alignLen]
  omega

theorem terminator_le_padPatStart (len target : Nat) : len + min 4 (target - len) ≤ padPatStart len target :=
  Nat.le_add_right ..

theorem padPatStart_lt (len target : Nat) : padPatStart len target < len + min 4 (target - len) + 8 :=
  Nat.add_lt_add_left (Nat.mod_lt _ (by decide)) _

/-- A target on a byte boundary is not passed by the zeros. -/
theorem padPatStart_le {len target : Nat} (hlen : len ≤ target) (htarget : target % 8 = 0) :
    padPatStart len target ≤ target := by
  simp only [padPatStart, terminatorLen, alignLen]
  omega

theorem padTo_eq_append (b : Bits) (target : Nat) :
    padTo b target = b ++ (List.replicate (padPatStart b.length target - b.length) false ++
      padPat 0 (target - padPatStart b.length target)) := by
  have hzeros : padPatStart b.length target - b.length =
      terminatorLen b.length target + alignLen (b.length + terminatorLen b.length target) := by
    rw [padPatStart, Nat.add_assoc, Nat.add_sub_cancel_left]
  rw [hzeros, List.replicate_add]
  simp [padTo, padPatStart, Nat.add_assoc]

theorem getElem?_padTo_of_lt_padPatStart {b : Bits} {target p : Nat} (hlo : b.length ≤ p)
    (hhi : p < padPatStart b.length target) : (padTo b target)[p]? = some false := by
  have hp : p - b.length < padPatStart b.length target - b.length := Nat.sub_lt_sub_right hlo hhi
  rw [padTo_eq_append, List.getElem?_append_right hlo, List.getElem?_append_left (by simpa using hp),
    List.getElem?_replicate, if_pos hp]

theorem getElem?_padTo_of_padPatStart_le {b : Bits} {target p : Nat} (hlo : padPatStart b.length target ≤ p)
    (hhi : p < target) : (padTo b target)[p]? = some (padPatBit (p - padPatStart b.length target)) := by
  have hb : b.length ≤ padPatStart b.length target :=
    (Nat.le_add_right ..).trans (terminator_le_padPatStart b.length target)
  have hp : p - b.length - (padPatStart b.length target - b.length) = p - padPatStart b.length target := by omega
  rw [padTo_eq_append, List.getElem?_append_right (hb.trans hlo),
    List.getElem?_append_right (by simpa using Nat.sub_le_sub_right hlo b.length), List.length_replicate, hp,
    getElem?_padPat (Nat.sub_lt_sub_right hlo hhi), Nat.zero_add]

/-- The pattern is `EC 11 EC 11 ...` as whole bytes, most significant bit first; it repeats every 16 bits. -/
theorem padPatBit_eq_getLsbD (i : Nat) :
    padPatBit i = (if i / 8 % 2 = 0 then 0xEC#8 else 0x11#8).getLsbD (7 - i % 8) := by
  have hperiod : ∀ j < 16, (0xEC11 : Nat).testBit (15 - j) =
      (if j / 8 % 2 = 0 then 0xEC#8 else 0x11#8).getLsbD (7 - j % 8) := by decide
  have hbyte : i % 16 / 8 % 2 = i / 8 % 2 := by omega
  have hbit : i % 16 % 8 = i % 8 := by omega
  rw [padPatBit, hperiod _ (Nat.mod_lt _ (by decide)), hbyte, hbit]

/-- A stream already on the target is left as it is: what is appended has no length. -/
theorem padTo_of_length_eq {b : Bits} {target : Nat} (hb : b.length = target) (htarget : target % 8 = 0) :
    padTo b target = b := by
  obtain ⟨r, hr⟩ := exists_padTo_eq_append b target
  have hprefix : b <+: padTo b target := ⟨r, hr.symm⟩
  exact (hprefix.eq_of_length (hb.trans (length_padTo hb.le htarget).symm)).symm

end Sys2Proof.Machine
end

section
/-! SUPPORT. The two outcomes of `PAD` (43_padding.md R162, R164). -/

namespace Sys2Proof.Machine

theorem exec_pad_of_fits {tgt : Half} {s : State} (hroom : tgt.toNat ≤ s.cfg.bufBytes)
    (hfits : s.bitLen ≤ 8 * tgt.toNat) :
    exec (.pad tgt) s = .next ((s.setStream (padTo s.stream (8 * tgt.toNat))).complete .ok) := by
  change execPad tgt s = _
  rw [execPad, if_neg hroom.not_gt, if_neg hfits.not_gt, succeed]

theorem exec_pad_of_out_of_range {tgt : Half} {s : State}
    (h : s.cfg.bufBytes < tgt.toNat ∨ 8 * tgt.toNat < s.bitLen) :
    exec (.pad tgt) s = .next (s.complete .range) := by
  change execPad tgt s = _
  rw [execPad]
  split
  next => rfl
  next hroom => exact if_pos (h.resolve_left hroom)

theorem exec_pad_next_ok {tgt : Half} {s t : State} (h : exec (.pad tgt) s = .next t) (herr : t.err = .ok) :
    tgt.toNat ≤ s.cfg.bufBytes ∧ s.bitLen ≤ 8 * tgt.toNat ∧
      t = (s.setStream (padTo s.stream (8 * tgt.toNat))).complete .ok := by
  by_cases hout : s.cfg.bufBytes < tgt.toNat ∨ 8 * tgt.toNat < s.bitLen
  · rw [exec_pad_of_out_of_range hout] at h
    cases h
    cases herr
  · rw [not_or, Nat.not_lt, Nat.not_lt] at hout
    obtain ⟨hroom, hfits⟩ := hout
    rw [exec_pad_of_fits hroom hfits] at h
    cases h
    exact ⟨hroom, hfits, rfl⟩

end Sys2Proof.Machine
end

section
/-! SUPPORT. The statements about padding (43_padding.md). -/

namespace Sys2Proof.Proofs

open Sys2Proof.Machine

/-- Settles O30: the boundary is where the pattern begins; since it is one of bytes, a bit has the same place in its
byte of the stream as in its byte of the pattern. -/
theorem paddingHasTheStatedShape : Obligations.PaddingHasTheStatedShape := by
  intro s target hs htarget
  have hmod := padPatStart_mod s.length target
  refine ⟨length_padTo hs htarget, ⟨_, (padTo_eq_append s target).symm⟩, padPatStart s.length target, hmod,
    terminator_le_padPatStart .., padPatStart_lt .., padPatStart_le hs htarget,
    fun p => getElem?_padTo_of_lt_padPatStart, fun p hlo hhi => ?_⟩
  have hbit : (p - padPatStart s.length target) % 8 = p % 8 := by omega
  rw [getElem?_padTo_of_padPatStart_le hlo hhi, padPatBit_eq_getLsbD, hbit]

/-- Settles O31: the two outcomes of `PAD`. -/
theorem padFillsToTheTarget : Obligations.PadFillsToTheTarget := fun _ _ =>
  ⟨exec_pad_of_fits, exec_pad_of_out_of_range⟩

/-- Settles O32: the padded stream has the target's length, so the second `PAD` fits and pads it by nothing. -/
theorem padTwiceAppendsNothing : Obligations.PadTwiceAppendsNothing := by
  intro tgt s t h herr
  obtain ⟨hroom, hfits, ht⟩ := exec_pad_next_ok h herr
  have hlen : t.bitLen = 8 * tgt.toNat := ht ▸ length_padTo hfits (Nat.mul_mod_right ..)
  have hsame : padTo t.stream (8 * tgt.toNat) = t.stream := padTo_of_length_eq hlen (Nat.mul_mod_right ..)
  have hcfg : t.cfg = s.cfg := exec_next_cfg h
  refine ⟨hlen, State.outLen_of_bitLen hlen, ?_⟩
  rw [exec_pad_of_fits (hcfg ▸ hroom) hlen.le, hsame, ht]
  rfl

end Sys2Proof.Proofs
end

section
/-! SUPPORT. What the selector `EBEST` answers, by the modes that fit, and what `CAPQ` answers, by its version
(44_selector_tables.md R170, R172). -/

namespace Sys2Proof.Machine

theorem encodeSeg_of_fitsIn {p : Params} {m : Mode} {lvl : Level} {ver : BitVec 6} {t : List Byte} {w : Nat}
    (h : FitsIn p m lvl ver t w) :
    encodeSeg p m lvl ver t = .ok (padTo (segmentData m w t) (8 * p.codewords lvl ver.toNat)) := by
  obtain ⟨hvalid, hw, hcount, hfits⟩ := h
  exact encodeSeg_of_fits hvalid hw hcount hfits

theorem exists_fitsIn_of_encodeSeg_ok {p : Params} {m : Mode} {lvl : Level} {ver : BitVec 6} {t : List Byte} {b : Bits}
    (h : encodeSeg p m lvl ver t = .ok b) : ∃ w, FitsIn p m lvl ver t w := by
  obtain ⟨hvalid, w, hw, hcount, hfits, -⟩ := encodeSeg_ok.1 h
  exact ⟨w, hvalid, hw, hcount, (length_segmentData m w t).symm.trans_le hfits⟩

theorem exists_encodeSeg_err_of_not_fitsIn {p : Params} {m : Mode} {lvl : Level} {ver : BitVec 6} {t : List Byte}
    (h : ∀ w, ¬ FitsIn p m lvl ver t w) : ∃ e, encodeSeg p m lvl ver t = .err e := by
  cases hseg : encodeSeg p m lvl ver t with
  | ok b => exact absurd (exists_fitsIn_of_encodeSeg_ok hseg) (not_exists.2 h)
  | err e => exact ⟨e, rfl⟩

/-- The selector's segment is that of mode `m` when `m` succeeds and every mode before it fails, for whatever reason. -/
theorem encodeBest_of_first {p : Params} {m : Mode} {lvl : Level} {ver : BitVec 6} {t : List Byte} {b : Bits}
    (hm : encodeSeg p m lvl ver t = .ok b)
    (hnum : m ≠ .num → ∃ e, encodeSeg p .num lvl ver t = .err e)
    (haln : m = .byt → ∃ e, encodeSeg p .aln lvl ver t = .err e) : encodeBest p lvl ver t = .ok b := by
  cases m with
  | num => rw [encodeBest_cases, hm]
  | aln =>
    obtain ⟨e, he⟩ := hnum (by decide)
    rw [encodeBest_cases, he, hm]
  | byt =>
    obtain ⟨e, he⟩ := hnum (by decide)
    obtain ⟨e', he'⟩ := haln rfl
    rw [encodeBest_cases, he, he', hm]

theorem encodeBest_of_none {p : Params} {lvl : Level} {ver : BitVec 6} {t : List Byte}
    (h : ∀ m, ∃ e, encodeSeg p m lvl ver t = .err e) : encodeBest p lvl ver t = .err .noMode := by
  obtain ⟨e, hnum⟩ := h .num
  obtain ⟨e', haln⟩ := h .aln
  obtain ⟨e'', hbyt⟩ := h .byt
  rw [encodeBest_cases, hnum, haln, hbyt]

/-- On a ready text `EBEST` commits what the selector makes of it. -/
theorem exec_ebest_of_ready {lvl : Level} {ver : BitVec 6} {s : State} {t : List Byte} (hready : s.TextReady t) :
    exec (.ebest lvl ver) s = commit (encodeBest s.cfg lvl ver t) s :=
  encodeCommand_ready hready

theorem exec_capq_of_version {ver : BitVec 6} (h : 1 ≤ ver.toNat ∧ ver.toNat ≤ 40) (tbl : TblSel) (lvl : Level)
    (s : State) :
    exec (.capq tbl lvl ver) s =
      .next ((s.setCapVal (((s.cfg.table tbl).row lvl)[ver.toNat - 1]'(by omega))).complete .ok) := by
  rw [exec, execCapq, versionOk_iff.2 h, CapTable.entry_eq (by omega)]
  rfl

theorem exec_capq_of_bad_version {ver : BitVec 6} (h : ver.toNat = 0 ∨ 41 ≤ ver.toNat) (tbl : TblSel) (lvl : Level)
    (s : State) : exec (.capq tbl lvl ver) s = .next (s.complete .version) := by
  rw [exec, execCapq, versionOk_eq_false h]
  rfl

end Sys2Proof.Machine
end

section
/-! SUPPORT. The statements about the selector and the capacity query (44_selector_tables.md). -/

namespace Sys2Proof.Proofs

open Sys2Proof.Machine

/-- Settles O47: a mode's `EncodeSeg` succeeds exactly where the text fits, and `EBEST` commits the first success. -/
theorem ebestTakesTheFirstModeThatSucceeds : Obligations.EbestTakesTheFirstModeThatSucceeds := by
  intro lvl ver s t hready
  refine ⟨fun m w hfits hnum haln => ?_, fun hnone => ?_⟩
  · rw [exec_ebest_of_ready hready, encodeBest_of_first (encodeSeg_of_fitsIn hfits)
      (fun hm => exists_encodeSeg_err_of_not_fitsIn (hnum hm)) (fun hm => exists_encodeSeg_err_of_not_fitsIn (haln hm))]
    rfl
  · rw [exec_ebest_of_ready hready, encodeBest_of_none fun m => exists_encodeSeg_err_of_not_fitsIn (hnone m)]
    rfl

/-- Settles O49: the statement's choice among the five tables is `Params.table`. -/
theorem capqReadsTheTable : Obligations.CapqReadsTheTable := by
  intro tbl lvl ver s
  refine ⟨fun hver => ?_, fun hver => exec_capq_of_bad_version hver tbl lvl s⟩
  rw [exec_capq_of_version hver]
  cases tbl <;> rfl

end Sys2Proof.Proofs
end

section
/-! SUPPORT. What a low-level command can answer: it succeeds or raises, and `APR` alone can fault (60_exceptions.md R183,
R189). -/

namespace Sys2Proof.Machine

/-! ### The low-level commands -/

/-- A low-level command's outcome that is no fault: success in some state, or an error that writes `STATUS` alone. -/
def SucceedsOrRaises (s : State) (o : Outcome) : Prop := (∃ t, o = succeed t) ∨ ∃ e, o = raise e s

theorem succeedsOrRaises_of_succeed (s t : State) : SucceedsOrRaises s (succeed t) := .inl ⟨t, rfl⟩

theorem succeedsOrRaises_of_raise (s : State) (e : ErrCode) : SucceedsOrRaises s (raise e s) := .inr ⟨e, rfl⟩

theorem succeedsOrRaises_appendOrRange (b : Bits) (s : State) : SucceedsOrRaises s (appendOrRange b s) := by
  unfold appendOrRange
  split
  · exact succeedsOrRaises_of_succeed s _
  · exact succeedsOrRaises_of_raise s .range

theorem succeedsOrRaises_execApb (cnt : BitVec 5) (val : Half) (s : State) :
    SucceedsOrRaises s (execApb cnt val s) := by
  unfold execApb
  split
  · exact succeedsOrRaises_of_raise s .illegal
  · exact succeedsOrRaises_appendOrRange _ s

theorem succeedsOrRaises_execEcnt (m : Mode) (ver : BitVec 6) (count : Half) (s : State) :
    SucceedsOrRaises s (execEcnt m ver count s) := by
  unfold execEcnt
  split
  · exact succeedsOrRaises_of_raise s .version
  split
  · exact succeedsOrRaises_of_raise s .range
  · exact succeedsOrRaises_appendOrRange _ s

theorem succeedsOrRaises_execPad (tgt : Half) (s : State) : SucceedsOrRaises s (execPad tgt s) := by
  unfold execPad
  split
  · exact succeedsOrRaises_of_raise s .range
  split
  · exact succeedsOrRaises_of_raise s .range
  · exact succeedsOrRaises_of_succeed s _

theorem succeedsOrRaises_execCapq (tbl : TblSel) (lvl : Level) (ver : BitVec 6) (s : State) :
    SucceedsOrRaises s (execCapq tbl lvl ver s) := by
  unfold execCapq
  split
  · exact succeedsOrRaises_of_raise s .version
  · exact succeedsOrRaises_of_succeed s _

/-- An error of a command that succeeds or raises changes nothing else. -/
theorem SucceedsOrRaises.eq_complete {s t : State} {o : Outcome} (h : SucceedsOrRaises s o) (ho : o = .next t)
    (herr : t.err ≠ .ok) : t = s.complete t.err := by
  obtain ⟨u, rfl⟩ | ⟨e, rfl⟩ := h
  · cases succeed_next.1 ho
    exact absurd (u.complete_err .ok) herr
  · cases raise_next.1 ho
    rfl

theorem SucceedsOrRaises.ne_fault {s : State} {o : Outcome} (h : SucceedsOrRaises s o) (f : Fault) :
    o ≠ .fault f := by
  obtain ⟨_, rfl⟩ | ⟨_, rfl⟩ := h
  all_goals exact fun hf => nomatch hf

/-! ### The bytes read, and `APR` -/

theorem State.readSrc_unwritten_iff {s : State} {n k : Nat} : s.readSrc n = .unwritten k ↔ s.FirstUnwritten n k := by
  rw [State.readSrc, Memory.readBytes_unwritten]
  constructor
  · rintro ⟨j, hj, rfl, hnone, hfirst⟩
    exact ⟨j, hj, rfl, hnone, hfirst⟩
  · rintro ⟨j, hj, rfl, hnone, hfirst⟩
    exact ⟨j, hj, rfl, hnone, hfirst⟩

theorem State.text_unwritten_iff {s : State} {k : Nat} :
    s.text = .unwritten k ↔ s.FirstUnwritten s.srcLen.toNat k := State.readSrc_unwritten_iff

/-- The three checks `APR` makes before it reads a byte (40_bitstream.md R104, R105). -/
structure State.AprChecks (s : State) (n : Half) : Prop where
  descriptor : s.srcOff.toNat + s.srcLen.toNat ≤ s.cfg.inBytes
  source : n.toNat ≤ 8 * s.srcLen.toNat
  room : s.bitLen + n.toNat ≤ 8 * s.cfg.bufBytes

theorem exec_apr_of_not_checks {s : State} {n : Half} (h : ¬ s.AprChecks n) :
    SucceedsOrRaises s (exec (.apr n) s) := by
  by_cases hdesc : s.srcOff.toNat + s.srcLen.toNat ≤ s.cfg.inBytes
  · refine .inr ⟨.range, exec_apr_of_over_limit hdesc ?_⟩
    by_contra hlimits
    exact h ⟨hdesc, by omega, by omega⟩
  · exact .inr ⟨.illegal, exec_apr_of_bad_descriptor (not_le.1 hdesc) n⟩

theorem exec_apr_of_first_unwritten {s : State} {n : Half} {k : Nat} (h : s.AprChecks n)
    (hk : s.FirstUnwritten (bytesFor n.toNat) k) : exec (.apr n) s = .fault (.unwrittenIn k) := by
  rw [exec, execApr, srcFits_iff.2 h.descriptor, room_iff.2 h.room, State.readSrc_unwritten_iff.2 hk,
    if_neg (by decide), if_neg h.source.not_gt, if_neg (by decide)]

/-- `APR` succeeds, raises, or behind its checks faults on the first unwritten byte it reads. -/
theorem exec_apr_cases (n : Half) (s : State) :
    SucceedsOrRaises s (exec (.apr n) s) ∨
      ∃ k, s.AprChecks n ∧ s.FirstUnwritten (bytesFor n.toNat) k ∧ exec (.apr n) s = .fault (.unwrittenIn k) := by
  by_cases h : s.AprChecks n
  · cases hread : s.readSrc (bytesFor n.toNat) with
    | unwritten k =>
      have hk := State.readSrc_unwritten_iff.1 hread
      exact .inr ⟨k, h, hk, exec_apr_of_first_unwritten h hk⟩
    | bytes d =>
      obtain ⟨hlen, hbytes⟩ := Memory.readBytes_bytes.1 hread
      exact .inl (.inl ⟨_, exec_apr_of_written h.descriptor h.source h.room hlen (hlen ▸ hbytes)⟩)
  · exact .inl (exec_apr_of_not_checks h)

theorem exec_apr_eq_unwrittenIn_iff {n : Half} {s : State} {k : Nat} :
    exec (.apr n) s = .fault (.unwrittenIn k) ↔ s.AprChecks n ∧ s.FirstUnwritten (bytesFor n.toNat) k := by
  constructor
  · intro h
    obtain hno | ⟨k', hchecks, hk, hrun⟩ := exec_apr_cases n s
    · exact absurd h (hno.ne_fault _)
    · cases hrun.symm.trans h
      exact ⟨hchecks, hk⟩
  · rintro ⟨hchecks, hk⟩
    exact exec_apr_of_first_unwritten hchecks hk

/-- A command that is no encode command succeeds or raises, but for `APR`'s fault. -/
theorem exec_low_level {i : Instr} (hi : isEncode i = false) (s : State) :
    SucceedsOrRaises s (exec i s) ∨ ∃ n k, i = .apr n ∧ exec i s = .fault (.unwrittenIn k) := by
  cases i with
  | clr => exact .inl (succeedsOrRaises_of_succeed s _)
  | apb => exact .inl (succeedsOrRaises_execApb ..)
  | apr n =>
    obtain h | ⟨k, -, -, h⟩ := exec_apr_cases n s
    · exact .inl h
    · exact .inr ⟨n, k, rfl, h⟩
  | ecnt => exact .inl (succeedsOrRaises_execEcnt ..)
  | pad => exact .inl (succeedsOrRaises_execPad ..)
  | capq => exact .inl (succeedsOrRaises_execCapq ..)
  | enum | ealn | ebyt | ebest => cases hi

end Sys2Proof.Machine
end

section
/-! SUPPORT. The four encode commands as one: what their common rule `encodeCommand` answers, and the errors of their
encoders (42_mode_encoders.md R142, 60_exceptions.md R181, R184, R185, R189). -/

namespace Sys2Proof.Machine

/-- The errors of an encode command behind its descriptor check (60_exceptions.md R181). -/
def ErrCode.IsEncodeError (e : ErrCode) : Prop := e = .charset ∨ e = .version ∨ e = .range ∨ e = .noMode

theorem ErrCode.IsEncodeError.ne_illegal {e : ErrCode} (h : e.IsEncodeError) : e ≠ .illegal := by
  rintro rfl
  simp [ErrCode.IsEncodeError] at h

theorem isEncodeError_of_encodeSeg {p : Params} {m : Mode} {lvl : Level} {ver : BitVec 6} {l : List Byte} {e : ErrCode}
    (h : encodeSeg p m lvl ver l = .err e) : e.IsEncodeError := by
  obtain rfl | rfl | rfl := encodeSeg_err h
  · exact .inl rfl
  · exact .inr (.inl rfl)
  · exact .inr (.inr (.inl rfl))

theorem isEncodeError_of_encodeBest {p : Params} {lvl : Level} {ver : BitVec 6} {l : List Byte} {e : ErrCode}
    (h : encodeBest p lvl ver l = .err e) : e.IsEncodeError := by
  rw [encodeBest_cases] at h
  split at h
  · cases h
  · cases h
  · cases h
  · cases h
    exact .inr (.inr (.inr rfl))

/-- Every encode command is `encodeCommand` with an encoder that knows the parameters and the text alone. -/
theorem exists_encoder {i : Instr} (hi : isEncode i = true) :
    ∃ enc : Params → List Byte → SegResult, (∀ p l e, enc p l = .err e → e.IsEncodeError) ∧
      ∀ s, exec i s = encodeCommand (enc s.cfg) s := by
  cases i with
  | enum lvl ver => exact ⟨fun p => encodeSeg p .num lvl ver, fun _ _ _ => isEncodeError_of_encodeSeg, fun _ => rfl⟩
  | ealn lvl ver => exact ⟨fun p => encodeSeg p .aln lvl ver, fun _ _ _ => isEncodeError_of_encodeSeg, fun _ => rfl⟩
  | ebyt lvl ver => exact ⟨fun p => encodeSeg p .byt lvl ver, fun _ _ _ => isEncodeError_of_encodeSeg, fun _ => rfl⟩
  | ebest lvl ver => exact ⟨fun p => encodeBest p lvl ver, fun _ _ _ => isEncodeError_of_encodeBest, fun _ => rfl⟩
  | clr | apb | apr | ecnt | pad | capq => cases hi

/-! ### The descriptor check and the read of the text -/

theorem encodeCommand_of_bad_descriptor {s : State} (h : s.cfg.inBytes < s.srcOff.toNat + s.srcLen.toNat)
    (enc : List Byte → SegResult) : encodeCommand enc s = .next (s.complete .illegal) := by
  have hfits : s.srcFits = false := Bool.eq_false_iff.2 fun hf => h.not_ge (srcFits_iff.1 hf)
  rw [encodeCommand, hfits]
  rfl

theorem encodeCommand_eq_unwrittenIn_iff {enc : List Byte → SegResult} {s : State} {k : Nat} :
    encodeCommand enc s = .fault (.unwrittenIn k) ↔
      s.srcOff.toNat + s.srcLen.toNat ≤ s.cfg.inBytes ∧ s.FirstUnwritten s.srcLen.toNat k := by
  rw [← srcFits_iff, ← State.text_unwritten_iff]
  constructor
  · intro h
    obtain ⟨hfits, i, htext, hi⟩ := encodeCommand_fault h
    cases hi
    exact ⟨hfits, htext⟩
  · rintro ⟨hfits, htext⟩
    rw [encodeCommand, hfits, htext]
    rfl

/-! ### The commit -/

/-- A commit overwrites the stream it finds. -/
theorem commit_setStream (r : SegResult) (s : State) (b : Bits) : commit r (s.setStream b) = commit r s := by
  cases r <;> rfl

theorem exists_commit_eq_next (r : SegResult) (s : State) : ∃ t, commit r s = .next t := by
  cases r with
  | ok b => exact ⟨_, rfl⟩
  | err e => exact ⟨_, rfl⟩

theorem encodeCommand_setStream {s : State} (h : s.srcOff.toNat + s.srcLen.toNat ≤ s.cfg.inBytes)
    (enc : List Byte → SegResult) (b : Bits) : encodeCommand enc (s.setStream b) = encodeCommand enc s := by
  have hfits : (s.setStream b).srcFits = s.srcFits := rfl
  have htext : (s.setStream b).text = s.text := rfl
  rw [encodeCommand, encodeCommand, hfits, htext, srcFits_iff.2 h]
  cases s.text with
  | unwritten k => rfl
  | bytes l => exact commit_setStream (enc l) s b

/-- The three ways an encode command completes: `E_ILLEGAL` from its descriptor, a segment, or an empty stream. -/
theorem exec_encode_next {i : Instr} {s t : State} (hi : isEncode i = true) (h : exec i s = .next t) :
    (s.cfg.inBytes < s.srcOff.toNat + s.srcLen.toNat ∧ t = s.complete .illegal) ∨
      (∃ b, t = (s.setStream b).complete .ok) ∨
      ∃ e, e.IsEncodeError ∧ t = (s.setStream []).complete e := by
  obtain ⟨enc, herrs, hexec⟩ := exists_encoder hi
  obtain ⟨hdesc, rfl⟩ | ⟨l, -, hc⟩ := encodeCommand_next ((hexec s).symm.trans h)
  · exact .inl ⟨not_le.1 hdesc, rfl⟩
  · obtain ⟨b, -, rfl⟩ | ⟨e, he, rfl⟩ := commit_next hc
    · exact .inr (.inl ⟨b, rfl⟩)
    · exact .inr (.inr ⟨e, herrs s.cfg l e he, rfl⟩)

end Sys2Proof.Machine
end

section
/-! SUPPORT. `APR` and the encode commands together: only they fault, and both sides of their descriptor check
(60_exceptions.md R185, R189). -/

namespace Sys2Proof.Machine

/-- Only the commands that read IN bytes fault, and only on an unwritten byte. -/
theorem exec_fault {i : Instr} {s : State} {f : Fault} (h : exec i s = .fault f) :
    (isEncode i = true ∨ ∃ n, i = .apr n) ∧ ∃ k, f = .unwrittenIn k := by
  cases hi : isEncode i with
  | true =>
    obtain ⟨enc, -, hexec⟩ := exists_encoder hi
    obtain ⟨-, k, -, hk⟩ := encodeCommand_fault ((hexec s).symm.trans h)
    exact ⟨.inl rfl, k, hk⟩
  | false =>
    obtain hno | ⟨n, k, hn, hrun⟩ := exec_low_level hi s
    · exact absurd h (hno.ne_fault f)
    · cases hrun.symm.trans h
      exact ⟨.inr ⟨n, hn⟩, k, rfl⟩

theorem exec_of_bad_descriptor {i : Instr} {s : State} (hi : isEncode i = true ∨ ∃ n, i = .apr n)
    (h : s.cfg.inBytes < s.srcOff.toNat + s.srcLen.toNat) : exec i s = .next (s.complete .illegal) := by
  obtain hi | ⟨n, rfl⟩ := hi
  · obtain ⟨enc, -, hexec⟩ := exists_encoder hi
    exact (hexec s).trans (encodeCommand_of_bad_descriptor h _)
  · exact exec_apr_of_bad_descriptor h n

/-- Of an empty source `APR` has no bit to append, or too few: no byte is read. -/
theorem exec_apr_of_empty_source {s : State} (hlen : s.srcLen = 0) (hoff : s.srcOff.toNat ≤ s.cfg.inBytes)
    (n : Half) : ∃ t, exec (.apr n) s = .next t ∧ t.err ≠ .illegal := by
  have hlen' : s.srcLen.toNat = 0 := by rw [hlen]; rfl
  have hdesc : s.srcOff.toNat + s.srcLen.toNat ≤ s.cfg.inBytes := by omega
  by_cases hlimits : n.toNat ≤ 8 * s.srcLen.toNat ∧ s.bitLen + n.toNat ≤ 8 * s.cfg.bufBytes
  · obtain ⟨hsrc, hroom⟩ := hlimits
    have hbytes : ([] : List Byte).length = bytesFor n.toNat := by
      rw [show n.toNat = 0 by omega]
      rfl
    exact ⟨_, exec_apr_of_written hdesc hsrc hroom hbytes (fun _ hk => absurd hk (Nat.not_lt_zero _)), by simp⟩
  · exact ⟨_, exec_apr_of_over_limit hdesc (by omega), by simp⟩

theorem exec_encode_of_empty_source {i : Instr} {s : State} (hi : isEncode i = true) (hlen : s.srcLen = 0)
    (hoff : s.srcOff.toNat ≤ s.cfg.inBytes) : ∃ t, exec i s = .next t ∧ t.err ≠ .illegal := by
  have hready := State.textReady_nil hlen hoff
  obtain ⟨enc, -, hexec⟩ := exists_encoder hi
  obtain ⟨t, ht⟩ := exists_commit_eq_next (enc s.cfg []) s
  have hrun : exec i s = .next t := by rw [hexec, encodeCommand_ready hready, ht]
  refine ⟨t, hrun, ?_⟩
  obtain ⟨hdesc, -⟩ | ⟨_, rfl⟩ | ⟨e, he, rfl⟩ := exec_encode_next hi hrun
  · exact absurd hready.legal hdesc.not_ge
  · simp
  · exact he.ne_illegal

end Sys2Proof.Machine
end

section
/-! SUPPORT. The statements about the exceptions (60_exceptions.md). -/

namespace Sys2Proof.Proofs

open Sys2Proof.Machine

/-- Settles O9: an encode command reads the whole text behind its descriptor check, `APR` the contributing bytes behind
its three checks; no other command reads a byte, and a host read has a byte to answer in any case. -/
theorem unwrittenInputBytesFault : Obligations.UnwrittenInputBytesFault := by
  refine ⟨fun i s k hi => ?_, fun n s k => ?_, fun _ _ _ => exec_fault, fun s off hlo hhi => ?_⟩
  · obtain ⟨enc, -, hexec⟩ := exists_encoder hi
    rw [hexec, encodeCommand_eq_unwrittenIn_iff]
  · rw [exec_apr_eq_unwrittenIn_iff]
    exact ⟨fun ⟨hchecks, hk⟩ => ⟨hchecks.descriptor, hchecks.source, hchecks.room, hk⟩,
      fun ⟨hdesc, hsrc, hroom, hk⟩ => ⟨⟨hdesc, hsrc, hroom⟩, hk⟩⟩
  · refine ⟨s.readIn (off.toNat - 0x1000), State.reads_of_inByte hlo (windowAt_in hlo hhi), fun v hv => ?_⟩
    rw [State.readIn, hv]

/-- Settles O16: what is no success of a low-level command is a `raise`; of the three ways an encode command completes
only the first has `E_ILLEGAL`. -/
theorem lowLevelErrorsChangeNothingElse : Obligations.LowLevelErrorsChangeNothingElse := by
  refine ⟨fun i s t h herr hkind => ?_, fun s w hpend hill => ?_⟩
  · cases hi : isEncode i with
    | false =>
      obtain hlow | ⟨_, _, -, hfault⟩ := exec_low_level hi s
      · exact hlow.eq_complete h herr
      · cases hfault.symm.trans h
    | true =>
      have hillegal := hkind.resolve_left (by simp [hi])
      obtain ⟨-, rfl⟩ | ⟨_, rfl⟩ | ⟨e, he, rfl⟩ := exec_encode_next hi h
      · rfl
      · exact absurd rfl herr
      · exact absurd hillegal he.ne_illegal
  · exact (takeTurn_core_of_pend hpend).trans (runWord_of_illegalWord (decode_illegal_iff_illegalWord.1 hill) s)

/-- Settles O17: an encode command's failure behind the descriptor check is the commit of an error, and a commit
overwrites the stream it finds. -/
theorem failedEncodeLeavesNoOutput : Obligations.FailedEncodeLeavesNoOutput := by
  refine ⟨fun i s t hi h herr hnot => ?_, fun i s b hi hdesc => ?_⟩
  · obtain ⟨-, rfl⟩ | ⟨_, rfl⟩ | ⟨e, he, rfl⟩ := exec_encode_next hi h
    · exact absurd rfl hnot
    · exact absurd rfl herr
    · exact ⟨rfl, (State.readReg_lengths_of_stream_nil rfl).2, he⟩
  · obtain ⟨enc, -, hexec⟩ := exists_encoder hi
    rw [hexec, hexec]
    exact encodeCommand_setStream hdesc (enc s.cfg) b

/-- Settles O45: the check compares natural numbers, and an empty descriptor's text is ready and empty. -/
theorem descriptorIsCheckedFirst : Obligations.DescriptorIsCheckedFirst := by
  refine ⟨fun _ _ => exec_of_bad_descriptor, fun i s hi hlen hoff => ?_⟩
  obtain hi | ⟨n, rfl⟩ := hi
  · exact exec_encode_of_empty_source hi hlen hoff
  · exact exec_apr_of_empty_source hlen hoff n

end Sys2Proof.Proofs
end

section
/-! SUPPORT. The writes the core ignores, busy or not (20_memory.md R57, 70_reset_and_hazards.md R207). -/

namespace Sys2Proof.Machine

theorem hostAccess_write_word {off : BitVec 14} (hreg : off.toNat < 0x1000) (halign : off.toNat % 4 = 0) (w : Word)
    (s : State) : hostAccess (.write off (.b32 w)) s = writeWord off.toNat w s :=
  if_pos (decide_eq_true ⟨hreg, halign⟩)

theorem writeWord_of_regAt_none {off : Nat} (h : regAt off = none) (w : Word) (s : State) :
    writeWord off w s = .next s := by
  rw [writeWord, h]

theorem Reg.offset_of_writable {r : Reg} (h : r.writable = true) :
    r.offset.toNat = 0x000 ∨ r.offset.toNat = 0x010 ∨ r.offset.toNat = 0x014 := by
  cases r with
  | cmd => exact .inl rfl
  | srcOff => exact .inr (.inl rfl)
  | srcLen => exact .inr (.inr rfl)
  | status | bitlen | outlen | capval | info => cases h

/-- A legal word write outside the writable registers finds a read-only register or an unmapped offset. -/
theorem hostAccess_write_word_ignored {off : BitVec 14} (hreg : off.toNat < 0x1000) (halign : off.toNat % 4 = 0)
    (hcmd : off.toNat ≠ 0x000) (hsrcOff : off.toNat ≠ 0x010) (hsrcLen : off.toNat ≠ 0x014) (w : Word) (s : State) :
    hostAccess (.write off (.b32 w)) s = .next s := by
  cases hr : regAt off.toNat with
  | none => exact (hostAccess_write_word hreg halign w s).trans (writeWord_of_regAt_none hr w s)
  | some r =>
    obtain rfl : off = r.offset := BitVec.eq_of_toNat_eq (regAt_eq_some hr)
    have hreadOnly : r.writable = false := Bool.eq_false_iff.2 fun hwritable => by
      have := Reg.offset_of_writable hwritable
      omega
    exact hostAccess_write_readOnly hreadOnly w s

/-- Past the IN window an offset names no IN byte, whatever the sizes of the windows. -/
theorem windowAt_ne_inByte {p : Params} {off : Nat} (h : 0x1000 + p.inBytes ≤ off) (i : Nat) :
    windowAt p off ≠ .inByte i := by
  rw [windowAt, if_neg (by omega)]
  split <;> simp

theorem writeByte_past_in {off : Nat} {s : State} (h : 0x1000 + s.cfg.inBytes ≤ off) (b : Byte) :
    writeByte off b s = .next s := by
  unfold writeByte
  split
  next i hi => exact absurd hi (windowAt_ne_inByte h i)
  next => rfl
  next => rfl

theorem hostAccess_write_byte_ignored {off : BitVec 14} {s : State} (h : 0x1000 + s.cfg.inBytes ≤ off.toNat) (b : Byte) :
    hostAccess (.write off (.b8 b)) s = .next s :=
  (hostAccess_write_byte (by omega) b s).trans (writeByte_past_in h b)

end Sys2Proof.Machine
end

section
/-! SUPPORT. The statement about operand writes while a command is pending (70_reset_and_hazards.md). -/

namespace Sys2Proof.Proofs

open Sys2Proof.Machine

/-- Settles O55: the three kinds of operand are written behind `unlessBusy`, and no other legal write but `CMD`'s reaches
the state. -/
theorem operandWritesWhileBusyFault : Obligations.OperandWritesWhileBusyFault :=
  ⟨fun s w hbusy =>
      ⟨(hostAccess_write_srcOff w s).trans (unlessBusy_busy hbusy _ _),
        (hostAccess_write_srcLen w s).trans (unlessBusy_busy hbusy _ _)⟩,
    fun _ _ b hbusy hlo hhi => (hostAccess_write_in hlo hhi b).trans (unlessBusy_busy hbusy _ _),
    fun s _ w hreg halign hcmd hsrcOff hsrcLen => hostAccess_write_word_ignored hreg halign hcmd hsrcOff hsrcLen w s,
    fun _ _ b hpast => hostAccess_write_byte_ignored hpast b⟩

end Sys2Proof.Proofs
end

section
/-! SUPPORT. Fields of a word put together and taken apart: the encoder against the decoder (30_encoding.md R71, R77,
R79, R81). -/

namespace Sys2Proof

open Sys2Proof.Machine Sys2Proof.Laws

/-! ### A field placed in a word -/

/-- A bit of a placed field is the field's bit, moved up. -/
theorem getLsbD_place {lo n k : Nat} (x : BitVec n) (hk : k < 32) :
    (place lo x).getLsbD k = (!decide (k < lo) && x.getLsbD (k - lo)) := by
  simp [place, hk]

theorem extractLsb'_place_same {lo n : Nat} (x : BitVec n) (h : lo + n ≤ 32) :
    (place lo x).extractLsb' lo n = x := by
  refine BitVec.eq_of_getLsbD_eq fun k hk => ?_
  simp [hk, getLsbD_place x (show lo + k < 32 by omega)]

theorem extractLsb'_place_other {lo n lo' m : Nat} (x : BitVec n) (hm : lo' + m ≤ 32)
    (h : lo + n ≤ lo' ∨ lo' + m ≤ lo) : (place lo x).extractLsb' lo' m = 0#m := by
  refine BitVec.eq_of_getLsbD_eq fun k hk => ?_
  rw [BitVec.getLsbD_extractLsb', getLsbD_place x (show lo' + k < 32 by omega)]
  obtain h | h := h
  · simp [BitVec.getLsbD_of_ge x (lo' + k - lo) (by omega)]
  · simp [show lo' + k < lo by omega]

/-- A field sliced from a word and placed where it stood is the word under the field's mask. -/
theorem place_extractLsb' (w : Word) {hi lo : Nat} (hlo : lo ≤ hi) (hhi : hi < 32) :
    place lo (w.extractLsb' lo (hi + 1 - lo)) = w &&& fieldMask hi lo := by
  refine BitVec.eq_of_toNat_eq ?_
  have hmask := toNat_and_fieldMask w hlo hhi
  have hplace := toNat_place_or (w.extractLsb' lo (hi + 1 - lo)) 0#0 (Nat.zero_le lo) (by omega)
  rw [toNat_extractLsb'_eq_slice] at hplace
  rw [hmask]
  simpa [place] using hplace

@[simp] theorem place_fieldCNT (w : Word) : place 16 (fieldCNT w) = w &&& fieldMask 20 16 :=
  place_extractLsb' w (hi := 20) (lo := 16) (by omega) (by omega)

@[simp] theorem place_fieldLow (w : Word) : place 0 (fieldLow w) = w &&& fieldMask 15 0 :=
  place_extractLsb' w (hi := 15) (lo := 0) (by omega) (by omega)

@[simp] theorem place_fieldMODE (w : Word) : place 26 (fieldMODE w) = w &&& fieldMask 27 26 :=
  place_extractLsb' w (hi := 27) (lo := 26) (by omega) (by omega)

@[simp] theorem place_fieldVER (w : Word) : place 16 (fieldVER w) = w &&& fieldMask 21 16 :=
  place_extractLsb' w (hi := 21) (lo := 16) (by omega) (by omega)

@[simp] theorem place_fieldLVL (w : Word) : place 24 (fieldLVL w) = w &&& fieldMask 25 24 :=
  place_extractLsb' w (hi := 25) (lo := 24) (by omega) (by omega)

@[simp] theorem place_fieldTBL (w : Word) : place 0 (fieldTBL w) = w &&& fieldMask 2 0 :=
  place_extractLsb' w (hi := 2) (lo := 0) (by omega) (by omega)

/-! ### Operand codes -/

@[simp] theorem Level.ofCode_code (l : Level) : Level.ofCode l.code = l := by cases l <;> rfl

@[simp] theorem Mode.ofCode_code (m : Mode) : Mode.ofCode m.code = some m := by cases m <;> rfl

@[simp] theorem TblSel.ofCode_code (t : TblSel) : TblSel.ofCode t.code = some t := by cases t <;> rfl

@[simp] theorem Level.code_ofCode : ∀ c : BitVec 2, (Level.ofCode c).code = c := by decide

theorem Mode.code_of_ofCode : ∀ c : BitVec 2, ∀ m ∈ Mode.ofCode c, m.code = c := by decide

theorem TblSel.code_of_ofCode : ∀ c : BitVec 3, ∀ t ∈ TblSel.ofCode c, t.code = c := by decide

/-! ### Decoding an encoded command -/

theorem encodedInRow (i : Instr) : EncodedInRow.Statement i := by
  cases i with
  | clr => exact EncodedInRow.clr
  | apb => exact EncodedInRow.apb ..
  | apr => exact EncodedInRow.apr ..
  | ecnt => exact EncodedInRow.ecnt ..
  | pad => exact EncodedInRow.pad ..
  | enum => exact EncodedInRow.enum ..
  | ealn => exact EncodedInRow.ealn ..
  | ebyt => exact EncodedInRow.ebyt ..
  | ebest => exact EncodedInRow.ebest ..
  | capq => exact EncodedInRow.capq ..

/-- The word of a command is judged by its own opcode's fields. -/
theorem decode_encode_eq_fieldsOf (i : Instr) : decode (encode i) = fieldsOf (encode i) (EncodedInRow.opOf i) := by
  obtain ⟨r, hr, hop, hhit⟩ := encodedInRow i
  obtain ⟨op, rfl⟩ := mem_rows_iff.1 hr
  exact (decode_of_row_hits hhit).trans (congrArg _ hop)

/-- Each operand is sliced from where the encoder placed it, and no other field reaches there. -/
theorem fieldsOf_encode {i : Instr} (h : i.wf = true) : fieldsOf (encode i) (EncodedInRow.opOf i) = .ok i := by
  cases i with
  | clr => rfl
  | apb cnt val =>
    have hcnt : ¬ 16 < cnt.toNat := not_lt.2 (of_decide_eq_true h)
    simp (disch := omega) [EncodedInRow.opOf, fieldsOf, encode, fieldCNT, fieldLow, BitVec.extractLsb'_or,
      extractLsb'_place_same, extractLsb'_place_other, hcnt]
  | apr | ecnt | pad | enum | ealn | ebyt | ebest | capq =>
    simp (disch := omega) [EncodedInRow.opOf, fieldsOf, encode, encodeE, fieldLow, fieldMODE, fieldVER, fieldLVL,
      fieldTBL, BitVec.extractLsb'_or, extractLsb'_place_same, extractLsb'_place_other]

/-! ### Encoding a decoded word -/

@[simp] theorem and_fieldsMask_nil (w : Word) : w &&& fieldsMask [] = 0#32 := BitVec.and_zero

@[simp] theorem and_fieldsMask_cons (w : Word) (hi lo : Nat) (rest : List (Nat × Nat)) :
    w &&& fieldsMask ((hi, lo) :: rest) = w &&& fieldMask hi lo ||| w &&& fieldsMask rest :=
  BitVec.and_or_distrib_left

/-- The operand fields of the format of a command (30_encoding.md R71). -/
def Op.operands : Op → List (Nat × Nat)
  | .clr => []
  | .apb => [(20, 16), (15, 0)]
  | .apr | .pad => [(15, 0)]
  | .ecnt => [(27, 26), (21, 16), (15, 0)]
  | .enum | .ealn | .ebyt | .ebest => [(25, 24), (21, 16)]
  | .capq => [(25, 24), (21, 16), (2, 0)]

/-- Opcode, reserved bits and operands together are the whole word. -/
theorem Op.mask_or_operands (op : Op) : op.row.mask ||| fieldsMask op.operands = BitVec.allOnes 32 := by
  cases op <;> decide

/-- A word that hits a command's row is the row's pattern with the operands filled in. -/
theorem Op.eq_pattern_or_operands {op : Op} {w : Word} (h : op.row.hits w = true) :
    w = op.row.pattern ||| w &&& fieldsMask op.operands := by
  have hpattern : w &&& op.row.mask = op.row.pattern := beq_iff_eq.1 h
  rw [← hpattern, ← BitVec.and_or_distrib_left, op.mask_or_operands, BitVec.and_allOnes]

/-- A word that decodes to a command hits a row, whose fields give the command. -/
theorem exists_row_of_decode_ok {w : Word} {i : Instr} (h : decode w = .ok i) :
    ∃ op : Op, op.row.hits w = true ∧ fieldsOf w op = .ok i := by
  by_cases hhit : ∃ op : Op, op.row.hits w = true
  · obtain ⟨op, hop⟩ := hhit
    exact ⟨op, hop, (decode_of_row_hits hop).symm.trans h⟩
  · obtain ⟨why, hwhy⟩ := decode_illegal_of_no_row (not_exists.1 hhit)
    cases h.symm.trans hwhy

/-- The command read from a word's fields is well-formed, and its word is the pattern with these fields. -/
theorem wf_and_encode_of_fieldsOf {w : Word} {op : Op} {i : Instr} (h : fieldsOf w op = .ok i) :
    i.wf = true ∧ encode i = op.row.pattern ||| w &&& fieldsMask op.operands := by
  have hopc : place 28 (BitVec.ofNat 4 op.code) = op.row.pattern := by cases op <;> rfl
  rw [← hopc]
  cases op with
  | clr => cases h; exact ⟨rfl, by simp [encode, Op.operands, Op.code]⟩
  | apb =>
    rw [fieldsOf] at h
    split at h
    · cases h
    next hcnt =>
      cases h
      refine ⟨decide_eq_true (not_lt.1 hcnt), ?_⟩
      simp [encode, Op.operands, Op.code, BitVec.or_assoc]
  | ecnt =>
    rw [fieldsOf] at h
    split at h
    · cases h
    next m hm =>
      cases h
      refine ⟨rfl, ?_⟩
      simp [encode, Op.operands, Op.code, BitVec.or_assoc, Mode.code_of_ofCode _ m hm]
  | capq =>
    rw [fieldsOf] at h
    split at h
    · cases h
    next t ht =>
      cases h
      refine ⟨rfl, ?_⟩
      simp [encode, Op.operands, Op.code, BitVec.or_assoc, TblSel.code_of_ofCode _ t ht]
  | apr | pad | enum | ealn | ebyt | ebest =>
    cases h
    refine ⟨rfl, ?_⟩
    simp [encode, encodeE, Op.operands, Op.code, BitVec.or_assoc]

end Sys2Proof
end

section
/-! SUPPORT. The statements about the decoder and the encoder as inverses of each other (30_encoding.md). -/

namespace Sys2Proof.Proofs

open Sys2Proof.Machine Sys2Proof.Laws

/-- Settles O1: the word of a command stands in the command's own row, where the decoder slices each operand from where
the encoder placed it. -/
theorem encodeThenDecodeGivesTheCommand : Obligations.EncodeThenDecodeGivesTheCommand := fun i hwf =>
  (decode_encode_eq_fieldsOf i).trans (fieldsOf_encode hwf)

/-- Settles O2: opcode, reserved bits and operands are the whole word, and the encoder puts each back where it was. -/
theorem decodedWordIsTheCommandsWord : Obligations.DecodedWordIsTheCommandsWord := by
  intro w i h
  obtain ⟨op, hhit, hfields⟩ := exists_row_of_decode_ok h
  obtain ⟨hwf, hword⟩ := wf_and_encode_of_fieldsOf hfields
  exact ⟨hwf, hword.trans (Op.eq_pattern_or_operands hhit).symm⟩

/-- Settles O4: the ten words are closed terms, which the decoder computes. -/
theorem sampleWordsDecodeAsTheSpecSays : Obligations.SampleWordsDecodeAsTheSpecSays :=
  ⟨rfl, rfl, rfl, rfl, rfl, rfl, rfl, rfl, rfl, rfl⟩

end Sys2Proof.Proofs
end

section
/-! SUPPORT. The two legal shapes of a host access, and everything a host write can answer (20_memory.md R56,
60_exceptions.md R190). -/

namespace Sys2Proof.Machine

theorem legalShape_iff {off : BitVec 14} {width : Width} :
    legalShape off width = true ↔
      (width = .w32 ∧ off.toNat < 0x1000 ∧ off.toNat % 4 = 0) ∨ (width = .w8 ∧ 0x1000 ≤ off.toNat) := by
  cases width <;> simp [legalShape, regShape, winShape]

/-- A write's outcome behind the check of its shape: a next state, or a fault of the busy protocol. -/
def AnswersOrBusy (o : Outcome) : Prop :=
  (∃ t, o = .next t) ∨ o = .fault .cmdWhileBusy ∨ ∃ off, o = .fault (.operandWriteWhileBusy off)

theorem answersOrBusy_next (t : State) : AnswersOrBusy (.next t) := .inl ⟨t, rfl⟩

theorem answersOrBusy_unlessBusy_cmd (s t : State) : AnswersOrBusy (unlessBusy .cmdWhileBusy s t) := by
  unfold unlessBusy
  split
  · exact .inr (.inl rfl)
  · exact answersOrBusy_next t

theorem answersOrBusy_unlessBusy_operand (off : Nat) (s t : State) :
    AnswersOrBusy (unlessBusy (.operandWriteWhileBusy off) s t) := by
  unfold unlessBusy
  split
  · exact .inr (.inr ⟨off, rfl⟩)
  · exact answersOrBusy_next t

theorem answersOrBusy_writeWord (off : Nat) (w : Word) (s : State) : AnswersOrBusy (writeWord off w s) := by
  unfold writeWord
  split
  · exact answersOrBusy_unlessBusy_cmd s _
  · exact answersOrBusy_unlessBusy_operand off s _
  · exact answersOrBusy_unlessBusy_operand off s _
  all_goals exact answersOrBusy_next s

theorem answersOrBusy_writeByte (off : Nat) (b : Byte) (s : State) : AnswersOrBusy (writeByte off b s) := by
  unfold writeByte
  split
  · exact answersOrBusy_unlessBusy_operand off s _
  all_goals exact answersOrBusy_next s

/-- A write of a legal shape is judged by the busy protocol alone; any other faults with its offset and width. -/
theorem hostWrite_cases (off : BitVec 14) (d : RData) (s : State) :
    (legalShape off d.width = true ∧ AnswersOrBusy (hostWrite off d s)) ∨
      (legalShape off d.width = false ∧ hostWrite off d s = .fault (.accessShape off.toNat d.width)) := by
  cases d with
  | b32 w =>
    cases h : regShape off with
    | true => exact .inl ⟨h, by simpa [hostWrite, h] using answersOrBusy_writeWord off.toNat w s⟩
    | false => exact .inr ⟨h, by simp [hostWrite, h, RData.width]⟩
  | b16 => exact .inr ⟨rfl, rfl⟩
  | b8 b =>
    cases h : winShape off with
    | true => exact .inl ⟨h, by simpa [hostWrite, h] using answersOrBusy_writeByte off.toNat b s⟩
    | false => exact .inr ⟨h, by simp [hostWrite, h, RData.width]⟩

theorem AnswersOrBusy.ne_accessShape {o : Outcome} (h : AnswersOrBusy o) (off : Nat) (width : Width) :
    o ≠ .fault (.accessShape off width) := by
  obtain ⟨_, rfl⟩ | rfl | ⟨_, rfl⟩ := h
  all_goals exact fun hf => nomatch hf

theorem hostAccess_read_of_bad_shape {off : BitVec 14} {width : Width} (h : legalShape off width = false) (s : State) :
    hostAccess (.read off width) s = .fault (.accessShape off.toNat width) := by
  obtain ⟨-, hlegal⟩ | ⟨hr, -⟩ := hostRead_cases off width s
  · exact nomatch h.symm.trans hlegal
  · exact hr

theorem hostAccess_write_of_bad_shape {off : BitVec 14} {d : RData} (h : legalShape off d.width = false) (s : State) :
    hostAccess (.write off d) s = .fault (.accessShape off.toNat d.width) := by
  obtain ⟨hlegal, -⟩ | ⟨-, hw⟩ := hostWrite_cases off d s
  · exact nomatch h.symm.trans hlegal
  · exact hw

theorem hostAccess_write_ne_accessShape {off : BitVec 14} {d : RData} (h : legalShape off d.width = true) (s : State)
    (o : Nat) (x : Width) : hostAccess (.write off d) s ≠ .fault (.accessShape o x) := by
  obtain ⟨-, hw⟩ | ⟨hbad, -⟩ := hostWrite_cases off d s
  · exact hw.ne_accessShape o x
  · exact nomatch h.symm.trans hbad

end Sys2Proof.Machine
end

section
/-! SUPPORT. What a step is, turn by turn (70_reset_and_hazards.md R203; log 1, log 2). -/

namespace Sys2Proof.Machine

theorem step_of_turn {s : State} {t : Turn} {rest : List Turn} (h : s.turns = t :: rest) :
    step s = takeTurn t (s.setTurns rest) := by
  rw [step, nextTurn, h]

theorem step_of_no_turn {s : State} (h : s.turns = []) : step s = takeTurn .core s := by
  rw [step, nextTurn, h, takeTurn]

theorem takeTurn_core_of_idle {s : State} (h : s.pend = none) : takeTurn .core s = .next s := by
  rw [takeTurn, coreTurn, h]

/-- The core's turn on the word of a command is the command. -/
theorem takeTurn_core_of_decode {s : State} {w : Word} {i : Instr} (hpend : s.pend = some w) (hdec : decode w = .ok i) :
    takeTurn .core s = exec i s := by
  rw [takeTurn_core_of_pend hpend, runWord, hdec]

/-! ### No refusal -/

theorem SucceedsOrRaises.ne_refused {s : State} {o : Outcome} (h : SucceedsOrRaises s o) (r : Refusal) :
    o ≠ .refused r := by
  obtain ⟨_, rfl⟩ | ⟨_, rfl⟩ := h
  all_goals exact fun hr => nomatch hr

theorem encodeCommand_ne_refused (enc : List Byte → SegResult) (s : State) (r : Refusal) :
    encodeCommand enc s ≠ .refused r := by
  unfold encodeCommand
  split
  · exact fun h => nomatch h
  split
  · exact fun h => nomatch h
  next l _ =>
    obtain ⟨t, ht⟩ := exists_commit_eq_next (enc l) s
    exact fun h => nomatch ht.symm.trans h

theorem exec_ne_refused (i : Instr) (s : State) (r : Refusal) : exec i s ≠ .refused r := by
  cases hi : isEncode i with
  | true =>
    obtain ⟨enc, -, hexec⟩ := exists_encoder hi
    rw [hexec]
    exact encodeCommand_ne_refused (enc s.cfg) s r
  | false =>
    obtain h | ⟨_, _, -, hfault⟩ := exec_low_level hi s
    · exact h.ne_refused r
    · exact fun h => nomatch hfault.symm.trans h

theorem hostWrite_ne_refused (off : BitVec 14) (d : RData) (s : State) (r : Refusal) :
    hostWrite off d s ≠ .refused r := by
  obtain ⟨-, ⟨_, hw⟩ | hw | ⟨_, hw⟩⟩ | ⟨-, hw⟩ := hostWrite_cases off d s
  all_goals exact fun h => nomatch hw.symm.trans h

theorem hostAccess_ne_refused (a : Access) (s : State) (r : Refusal) : hostAccess a s ≠ .refused r := by
  cases a with
  | read off width =>
    obtain ⟨hr, -⟩ | ⟨hr, -⟩ := hostRead_cases off width s
    all_goals exact fun h => nomatch hr.symm.trans h
  | write off d => exact hostWrite_ne_refused off d s r

theorem takeTurn_ne_refused (t : Turn) (s : State) (r : Refusal) : takeTurn t s ≠ .refused r := by
  cases t with
  | host a => exact hostAccess_ne_refused a s r
  | core =>
    cases hp : s.pend with
    | none => exact fun h => nomatch (takeTurn_core_of_idle hp).symm.trans h
    | some w =>
      rw [takeTurn_core_of_pend hp]
      obtain ⟨i, -, hr⟩ | ⟨_, -, hr⟩ := runWord_cases w s
      · rw [hr]; exact exec_ne_refused i s r
      · exact fun h => nomatch hr.symm.trans h
  | reset => exact fun h => nomatch h

theorem step_ne_refused (s : State) (r : Refusal) : step s ≠ .refused r := by
  cases h : s.turns with
  | nil => rw [step_of_no_turn h]; exact takeTurn_ne_refused _ _ r
  | cons t rest => rw [step_of_turn h]; exact takeTurn_ne_refused _ _ r

end Sys2Proof.Machine
end

section
/-! SUPPORT. Polling: host reads while a command is pending change the model's own record of the data alone
(70_reset_and_hazards.md R203, R204; log 1, log 3). -/

namespace Sys2Proof.Machine

@[simp] theorem State.readReg_setTurns (s : State) (l : List Turn) (r : Reg) :
    (s.setTurns l).readReg r = s.readReg r := by
  cases r <;> rfl

@[simp] theorem State.readData_setTurns (s : State) (l : List Turn) (off : Nat) (width : Width) :
    (s.setTurns l).readData off width = s.readData off width := by
  cases width with
  | w32 => simp only [State.readData, State.readWord, State.readReg_setTurns]
  | w16 | w8 => rfl

theorem Turn.legalRead_iff {t : Turn} :
    t.legalRead = true ↔ ∃ off width, t = .host (.read off width) ∧ legalShape off width = true := by
  constructor
  · intro h
    cases t with
    | host a =>
      cases a with
      | read off width => exact ⟨off, width, rfl, h⟩
      | write => cases h
    | core | reset => cases h
  · rintro ⟨off, width, rfl, h⟩
    exact h

/-- A listed legal read takes its turn off the list and leaves its data. -/
theorem step_of_read {s : State} {off : BitVec 14} {width : Width} {rest : List Turn}
    (h : s.turns = .host (.read off width) :: rest) (hlegal : legalShape off width = true) :
    step s = .next ((s.setTurns rest).setLastRead (s.readData off.toNat width)) := by
  have hread : hostAccess (.read off width) (s.setTurns rest) =
      .next ((s.setTurns rest).setLastRead ((s.setTurns rest).readData off.toNat width)) :=
    (s.setTurns rest).reads_of_legalShape hlegal
  rw [step_of_turn h, takeTurn, hread, State.readData_setTurns]

/-- `s` with the turns `rest` to come and `d` the data of the last read, if there was one. -/
def State.polled (s : State) (rest : List Turn) (d : Option RData) : State := { s with turns := rest, lastRead := d }

theorem run_one (s : State) : Host.Core.run Sys2Proof.core 1 s = step s := by
  cases h : step s with
  | next => exact run_next h
  | fault | refused => simp only [Host.Core.run, core, h]

/-- Legal reads at the head of the list change nothing of what a run does behind them but the data of the last read. -/
theorem exists_run_polled {s : State} {reads rest : List Turn} (hreads : ∀ t ∈ reads, t.legalRead = true)
    (hturns : s.turns = reads ++ rest) :
    ∃ d, ∀ k, Host.Core.run Sys2Proof.core (reads.length + k) s = Host.Core.run Sys2Proof.core k (s.polled rest d) := by
  induction reads generalizing s with
  | nil =>
    have hself : s.polled rest s.lastRead = s := by
      rw [State.polled, show rest = s.turns from hturns.symm]
    exact ⟨s.lastRead, fun k => by rw [hself, List.length_nil, Nat.zero_add]⟩
  | cons t reads ih =>
    obtain ⟨ht, hrest⟩ := List.forall_mem_cons.1 hreads
    obtain ⟨off, width, rfl, hlegal⟩ := Turn.legalRead_iff.1 ht
    obtain ⟨d, hd⟩ := ih (s := (s.setTurns (reads ++ rest)).setLastRead (s.readData off.toNat width)) hrest rfl
    refine ⟨d, fun k => ?_⟩
    rw [List.length_cons, Nat.add_right_comm, run_next (step_of_read hturns hlegal)]
    exact hd k

/-- The `k`-th of listed legal reads answers what it would have answered in the state before all of them. -/
theorem run_through_read {s : State} (hreads : ∀ t ∈ s.turns, t.legalRead = true) {k : Nat} {off : BitVec 14}
    {width : Width} (hk : s.turns[k]? = some (.host (.read off width))) (hlegal : legalShape off width = true) :
    Host.Core.run Sys2Proof.core (k + 1) s =
      .next (s.polled (s.turns.drop (k + 1)) (some (s.readData off.toNat width))) := by
  obtain ⟨hlt, hget⟩ := List.getElem?_eq_some_iff.1 hk
  have hsplit : s.turns = s.turns.take k ++ .host (.read off width) :: s.turns.drop (k + 1) := by
    rw [← hget, ← List.drop_eq_getElem_cons hlt, List.take_append_drop]
  obtain ⟨d, hd⟩ := exists_run_polled (fun t ht => hreads t (List.mem_of_mem_take ht)) hsplit
  have hrun := hd 1
  rw [List.length_take_of_le hlt.le, run_one, step_of_read rfl hlegal] at hrun
  rw [hrun]
  rfl

/-- Under the invariant `STATUS` shows a pending command as `BUSY` 1 and `ERR` 0. -/
theorem slices_statusWord_of_pend {s : State} {w : Word} (hinv : s.Inv) (hpend : s.pend = some w) :
    slice s.statusWord 31 31 = 1 ∧ slice s.statusWord 3 0 = 0 := by
  have herr : s.err = .ok := hinv.cleared (by rw [State.busy, hpend, Option.isSome_some])
  have hword : s.statusWord.toNat = 2 ^ 31 := by
    simp [toNat_statusWord, hpend, herr, ErrCode.code]
  simp [slice, hword]

end Sys2Proof.Machine
end

section
/-! SUPPORT. The statements about steps, turns and the host's accesses (20_memory.md, 70_reset_and_hazards.md). -/

namespace Sys2Proof.Proofs

open Sys2Proof.Machine

/-- Settles O5: the core's turn on a pending command's word is the command. -/
theorem stepRunsThePendingCommand : Obligations.StepRunsThePendingCommand := fun _ _ _ hpend hdec =>
  ⟨fun hturns => (step_of_no_turn hturns).trans (takeTurn_core_of_decode hpend hdec),
    fun _ hturns => (step_of_turn hturns).trans (takeTurn_core_of_decode hpend hdec)⟩

/-- Settles O6: the list of turns is taken apart before anything else. -/
theorem stepTakesTheNextTurn : Obligations.StepTakesTheNextTurn :=
  ⟨fun _ _ _ => step_of_turn, fun _ _ _ => step_of_turn, fun _ => step_of_no_turn, fun _ => takeTurn_core_of_idle⟩

/-- Settles O7: a read leaves the state but for its turn and its data, on which no later read or command depends. -/
theorem pollingSeesTheStateBeforeTheCommand : Obligations.PollingSeesTheStateBeforeTheCommand := by
  intro s w i hpend hdec hreads
  refine ⟨fun k off width hk => ?_, fun hinv => ?_, ?_⟩
  · obtain ⟨_, _, hread, hlegal⟩ := Turn.legalRead_iff.1 (hreads _ (List.mem_of_getElem? hk))
    cases hread
    exact ⟨s.reads_of_legalShape hlegal, run_through_read hreads hk hlegal⟩
  · exact ⟨s.statusWord, s.reads_reg .status, slices_statusWord_of_pend hinv hpend⟩
  · obtain ⟨d, hd⟩ := exists_run_polled (rest := []) hreads (List.append_nil _).symm
    have hstep : step (s.polled [] d) = exec i (s.polled [] d) :=
      (step_of_no_turn rfl).trans (takeTurn_core_of_decode hpend hdec)
    exact ⟨d, hd 0, (hd 1).trans ((run_one _).trans hstep)⟩

/-- Settles O8: each turn answers a next state or a fault. -/
theorem noStepIsRefused : Obligations.NoStepIsRefused := step_ne_refused

/-- Settles O58: both kinds of access are judged by `legalShape` first. -/
theorem otherAccessShapesFault : Obligations.OtherAccessShapesFault := by
  intro s off width
  rw [← legalShape_iff]
  refine ⟨fun hbad => ?_, fun hlegal => ⟨⟨_, s.reads_of_legalShape hlegal⟩, ?_⟩⟩
  · rw [Bool.not_eq_true] at hbad
    exact ⟨hostAccess_read_of_bad_shape hbad s, fun _ hd => hd ▸ hostAccess_write_of_bad_shape (hd ▸ hbad) s⟩
  · exact fun _ o x hd => hostAccess_write_ne_accessShape (hd ▸ hlegal) s o x

end Sys2Proof.Proofs
end

section
/-! SUPPORT. What each command that answers a next state can have done, as the errors it can raise and the bits it can
append (60_exceptions.md R181, 40_bitstream.md R99). -/

namespace Sys2Proof.Machine

/-- `t` is `s` with its command completed without error and bits appended for which there was room. -/
def State.AppendsWithin (s t : State) : Prop :=
  ∃ b, s.bitLen + b.length ≤ 8 * s.cfg.bufBytes ∧ t = (s.append b).complete .ok

theorem appendsWithin_of_appendOrRange {b : Bits} {s t : State} (h : appendOrRange b s = .next t) :
    t = s.complete .range ∨ s.AppendsWithin t := by
  obtain ⟨hroom, rfl⟩ | ⟨-, rfl⟩ := appendOrRange_next h
  · exact .inr ⟨b, hroom, rfl⟩
  · exact .inl rfl

theorem exec_apb_next {cnt : BitVec 5} {val : Half} {s t : State} (h : exec (.apb cnt val) s = .next t) :
    (16 < cnt.toNat ∧ t = s.complete .illegal) ∨ t = s.complete .range ∨ s.AppendsWithin t := by
  rw [exec, execApb] at h
  split at h
  next hcnt => exact .inl ⟨hcnt, raise_next.1 h⟩
  next => exact .inr (appendsWithin_of_appendOrRange h)

theorem exec_apr_next {n : Half} {s t : State} (h : exec (.apr n) s = .next t) :
    t = s.complete .illegal ∨ t = s.complete .range ∨ s.AppendsWithin t := by
  rw [exec, execApr] at h
  split at h
  · exact .inl (raise_next.1 h)
  split at h
  · exact .inr (.inl (raise_next.1 h))
  split at h
  · exact .inr (.inl (raise_next.1 h))
  next hroom =>
    split at h
    · cases h
    · refine .inr (.inr ⟨_, ?_, succeed_next.1 h⟩)
      have hfits := room_iff.1 (by simpa using hroom)
      rw [List.length_take]
      omega

theorem exec_ecnt_next {m : Mode} {ver : BitVec 6} {count : Half} {s t : State}
    (h : exec (.ecnt m ver count) s = .next t) :
    (versionOk ver = false ∧ t = s.complete .version) ∨ t = s.complete .range ∨ s.AppendsWithin t := by
  cases hw : countWidth m ver with
  | none =>
    cases (exec_ecnt_of_no_width hw count s).symm.trans h
    exact .inl ⟨countWidth_eq_none.1 hw, rfl⟩
  | some w =>
    rw [exec_ecnt_of_width hw] at h
    split at h
    · exact .inr (.inl (raise_next.1 h))
    · exact .inr (appendsWithin_of_appendOrRange h)

theorem exec_pad_next {tgt : Half} {s t : State} (h : exec (.pad tgt) s = .next t) :
    t = s.complete .range ∨ s.AppendsWithin t := by
  by_cases hout : s.cfg.bufBytes < tgt.toNat ∨ 8 * tgt.toNat < s.bitLen
  · cases (exec_pad_of_out_of_range hout).symm.trans h
    exact .inl rfl
  · obtain ⟨hroom, hfits⟩ := not_or.1 hout
    cases (exec_pad_of_fits (not_lt.1 hroom) (not_lt.1 hfits)).symm.trans h
    obtain ⟨r, hr⟩ := exists_padTo_eq_append s.stream (8 * tgt.toNat)
    have hlen : s.bitLen + r.length = 8 * tgt.toNat := by
      rw [State.bitLen, ← List.length_append, ← hr, length_padTo (not_lt.1 hfits) (Nat.mul_mod_right ..)]
    exact .inr ⟨r, by omega, by rw [hr]; rfl⟩

/-- An appending command raises an error or appends within the buffer. -/
theorem exec_append_next {i : Instr} {s t : State} (hi : isAppend i = true) (h : exec i s = .next t) :
    (∃ e, t = s.complete e) ∨ s.AppendsWithin t := by
  cases i with
  | apb =>
    obtain ⟨-, ht⟩ | ht | ht := exec_apb_next h
    exacts [.inl ⟨_, ht⟩, .inl ⟨_, ht⟩, .inr ht]
  | apr =>
    obtain ht | ht | ht := exec_apr_next h
    exacts [.inl ⟨_, ht⟩, .inl ⟨_, ht⟩, .inr ht]
  | ecnt =>
    obtain ⟨-, ht⟩ | ht | ht := exec_ecnt_next h
    exacts [.inl ⟨_, ht⟩, .inl ⟨_, ht⟩, .inr ht]
  | pad =>
    obtain ht | ht := exec_pad_next h
    exacts [.inl ⟨_, ht⟩, .inr ht]
  | clr | enum | ealn | ebyt | ebest | capq => cases hi

theorem version_of_countWidth {m : Mode} {ver : BitVec 6} {w : Nat} (h : countWidth m ver = some w) :
    1 ≤ ver.toNat ∧ ver.toNat ≤ 40 := by
  rw [← versionOk_iff, ← Bool.not_eq_false, ← countWidth_eq_none (m := m), h]
  exact nofun

theorem versionOk_eq_false_iff {ver : BitVec 6} : versionOk ver = false ↔ ver.toNat < 1 ∨ 40 < ver.toNat := by
  rw [← Bool.not_eq_true, versionOk_iff]
  omega

theorem exec_capq_next {tbl : TblSel} {lvl : Level} {ver : BitVec 6} {s t : State}
    (h : exec (.capq tbl lvl ver) s = .next t) :
    (versionOk ver = false ∧ t = s.complete .version) ∨ ∃ v, t = (s.setCapVal v).complete .ok := by
  rw [exec, execCapq] at h
  split at h
  next hver => exact .inl ⟨by simpa using hver, raise_next.1 h⟩
  next => exact .inr ⟨_, succeed_next.1 h⟩

/-- No host access writes the stream (10_state.md R21). -/
theorem hostAccess_next_stream {a : Access} {s t : State} (h : hostAccess a s = .next t) : t.stream = s.stream := by
  cases a with
  | read off width => rw [hostRead_next h, State.setLastRead_stream]
  | write off d =>
    obtain ⟨-, ⟨_, rfl⟩ | ⟨_, rfl⟩ | ⟨_, rfl⟩ | ⟨_, _, -, rfl⟩⟩ | rfl := hostWrite_next h
    all_goals rfl

/-- A successful encode command leaves a segment of the text the descriptor names. -/
theorem exec_encode_next_segment {i : Instr} {lvl : Level} {ver : BitVec 6} {s t : State}
    (hi : encodeArgs i = some (lvl, ver)) (h : exec i s = .next t) (herr : t.err = .ok) :
    ∃ l m, s.TextReady l ∧ encodeSeg s.cfg m lvl ver l = .ok t.stream := by
  have hmode : ∀ m, exec (encodeCmd m lvl ver) s = .next t →
      ∃ l m, s.TextReady l ∧ encodeSeg s.cfg m lvl ver l = .ok t.stream := fun m hm => by
    obtain ⟨l, b, hready, hb, rfl⟩ := exec_encodeCmd_next_ok hm herr
    exact ⟨l, m, hready, hb⟩
  cases i with
  | enum => cases hi; exact hmode .num h
  | ealn => cases hi; exact hmode .aln h
  | ebyt => cases hi; exact hmode .byt h
  | ebest =>
    cases hi
    obtain ⟨l, b, hready, hb, rfl⟩ := encodeCommand_next_ok (encodeBest_ne_err_ok s.cfg lvl ver) h herr
    obtain ⟨m, hm⟩ := exists_encodeSeg_of_encodeBest_ok hb
    exact ⟨l, m, hready, hm⟩
  | clr | apb | apr | ecnt | pad | capq => cases hi

/-! ### The errors of the encode commands -/

/-- An encode command raises `E_ILLEGAL` or what its encoder answers for some text, or succeeds. -/
theorem encodeCommand_next_err {enc : List Byte → SegResult} {s t : State} (h : encodeCommand enc s = .next t) :
    t.err = .ok ∨ t.err = .illegal ∨ ∃ l, enc l = .err t.err := by
  obtain ⟨-, rfl⟩ | ⟨l, -, hc⟩ := encodeCommand_next h
  · exact .inr (.inl rfl)
  · obtain ⟨_, -, rfl⟩ | ⟨_, he, rfl⟩ := commit_next hc
    · exact .inl rfl
    · exact .inr (.inr ⟨l, he⟩)

/-- `E_NOMODE` is the selector's alone. -/
theorem exec_encodeCmd_err_ne_noMode {m : Mode} {lvl : Level} {ver : BitVec 6} {s t : State}
    (h : exec (encodeCmd m lvl ver) s = .next t) : t.err ≠ .noMode := by
  rw [exec_encodeCmd] at h
  intro hno
  obtain he | he | ⟨l, he⟩ := encodeCommand_next_err h
  · cases hno.symm.trans he
  · cases hno.symm.trans he
  · rw [hno] at he
    obtain he | he | he := encodeSeg_err he
    all_goals cases he

/-- Every text is valid in byte mode. -/
theorem encodeSeg_byt_ne_charset (p : Params) (lvl : Level) (ver : BitVec 6) (t : List Byte) :
    encodeSeg p .byt lvl ver t ≠ .err .charset := by
  have hvalid : validText .byt t = true := rfl
  cases hw : countWidth .byt ver with
  | none =>
    rw [encodeSeg_of_no_width hvalid hw]
    exact nofun
  | some w =>
    by_cases hlim : 2 ^ w ≤ t.length ∨ 8 * p.codewords lvl ver.toNat < 4 + w + (payload .byt t).length
    · rw [encodeSeg_of_over_limit hvalid hw hlim]
      exact nofun
    · obtain ⟨hcount, hfits⟩ := not_or.1 hlim
      rw [encodeSeg_of_fits hvalid hw (not_le.1 hcount) (not_lt.1 hfits)]
      exact nofun

theorem exec_ebyt_err_ne_charset {lvl : Level} {ver : BitVec 6} {s t : State}
    (h : exec (.ebyt lvl ver) s = .next t) : t.err ≠ .charset := by
  intro hch
  obtain he | he | ⟨l, he⟩ := encodeCommand_next_err h
  · cases hch.symm.trans he
  · cases hch.symm.trans he
  · exact encodeSeg_byt_ne_charset s.cfg lvl ver l (hch ▸ he)

theorem encodeBest_err {p : Params} {lvl : Level} {ver : BitVec 6} {t : List Byte} {e : ErrCode}
    (h : encodeBest p lvl ver t = .err e) : e = .noMode := by
  rw [encodeBest_cases] at h
  split at h
  all_goals cases h
  rfl

end Sys2Proof.Machine
end

section
/-! SUPPORT. What keeps the invariant of the machine (00_scope.md R7; 10_state.md R20, R25, R36). -/

namespace Sys2Proof.Machine

/-- Nothing but the parameters, the stream, the IN window and `ERR` while busy matters to the invariant. -/
theorem State.Inv.congr {s t : State} (h : s.Inv) (hcfg : t.cfg = s.cfg) (hstream : t.stream = s.stream)
    (hin : t.inMem = s.inMem) (hcleared : t.busy = true → t.err = .ok) : t.Inv where
  params := hcfg ▸ h.params
  fits := by rw [State.bitLen, hcfg, hstream]; exact h.fits
  canonical := hin ▸ h.canonical
  inside := by rw [hcfg, hin]; exact h.inside
  cleared := hcleared

theorem State.Inv.complete {s : State} (h : s.Inv) (e : ErrCode) : (s.complete e).Inv :=
  h.congr rfl rfl rfl nofun

/-- An IN byte inside the window can be written. -/
theorem State.Inv.setIn {s : State} (h : s.Inv) {i : Nat} (hi : i < s.cfg.inBytes) (b : Byte) : (s.setIn i b).Inv where
  params := h.params
  fits := h.fits
  canonical := Memory.write_wf h.canonical i b
  inside := Memory.write_within h.inside hi b
  cleared := h.cleared

theorem State.Inv.applyReset {s : State} (h : s.Inv) : s.applyReset.Inv where
  params := h.params
  fits := Nat.zero_le _
  canonical := State.reset_inMem_wf
  inside := List.forall_mem_nil _
  cleared := nofun

/-- A segment fits the buffer, since every capacity does (00_scope.md R7). -/
theorem length_le_of_encodeSeg_ok {p : Params} (hp : p.valid = true) {m : Mode} {lvl : Level} {ver : BitVec 6}
    {l : List Byte} {b : Bits} (h : encodeSeg p m lvl ver l = .ok b) : b.length ≤ 8 * p.bufBytes := by
  obtain ⟨-, w, hw, -⟩ := encodeSeg_ok.1 h
  obtain ⟨-, hver⟩ := version_of_countWidth hw
  obtain ⟨-, hcap⟩ := Params.codewords_bounds hp lvl (ver := ver.toNat) (by omega)
  have hlen := length_of_encodeSeg_ok h
  omega

theorem State.Inv.exec_encode {i : Instr} {s t : State} (hs : s.Inv) (hi : isEncode i = true)
    (h : exec i s = .next t) : t.Inv := by
  obtain ⟨⟨lvl, ver⟩, hargs⟩ := Option.isSome_iff_exists.1 hi
  by_cases herr : t.err = .ok
  · obtain ⟨m, l, b, hb, rfl⟩ := exec_encode_next_ok hargs h herr
    exact hs.setStream_complete (length_le_of_encodeSeg_ok hs.params hb) .ok
  · obtain ⟨-, rfl⟩ | ⟨_, rfl⟩ | ⟨e, -, rfl⟩ := exec_encode_next hi h
    · exact hs.complete .illegal
    · exact absurd rfl herr
    · exact hs.setStream_complete (Nat.zero_le _) e

theorem State.Inv.exec_append {i : Instr} {s t : State} (hs : s.Inv) (hi : isAppend i = true)
    (h : exec i s = .next t) : t.Inv := by
  obtain ⟨e, rfl⟩ | ⟨b, hroom, rfl⟩ := exec_append_next hi h
  · exact hs.complete e
  · exact hs.setStream_complete ((s.append_bitLen b).trans_le hroom) .ok

theorem State.Inv.exec {i : Instr} {s t : State} (hs : s.Inv) (h : exec i s = .next t) : t.Inv := by
  cases i with
  | clr =>
    cases h
    exact hs.setStream_complete (Nat.zero_le _) .ok
  | apb | apr | ecnt | pad => exact hs.exec_append rfl h
  | enum | ealn | ebyt | ebest => exact hs.exec_encode rfl h
  | capq =>
    obtain ⟨v, e, rfl⟩ := execCapq_next h
    exact hs.congr rfl rfl rfl nofun

theorem State.Inv.runWord {w : Word} {s t : State} (hs : s.Inv) (h : runWord w s = .next t) : t.Inv := by
  obtain ⟨i, -, hr⟩ | ⟨_, -, hr⟩ := runWord_cases w s
  · exact hs.exec (hr.symm.trans h)
  · cases hr.symm.trans h
    exact hs.complete .illegal

theorem State.Inv.hostAccess {a : Access} {s t : State} (hs : s.Inv) (h : hostAccess a s = .next t) : t.Inv := by
  cases a with
  | read off width =>
    rw [hostRead_next h]
    exact hs.congr rfl rfl rfl hs.cleared
  | write off d =>
    obtain ⟨-, ⟨_, rfl⟩ | ⟨_, rfl⟩ | ⟨_, rfl⟩ | ⟨i, b, hi, rfl⟩⟩ | rfl := hostWrite_next h
    · exact hs.congr rfl rfl rfl fun _ => rfl
    · exact hs.congr rfl rfl rfl hs.cleared
    · exact hs.congr rfl rfl rfl hs.cleared
    · exact hs.setIn hi b
    · exact hs

theorem State.Inv.step {s t : State} (hs : s.Inv) (h : step s = .next t) : t.Inv := by
  obtain ⟨u, hu, hturn⟩ := nextTurn_next h
  have hinv : u.Inv := by
    obtain rfl | ⟨_, rfl⟩ := hu
    · exact hs
    · exact hs.congr rfl rfl rfl hs.cleared
  obtain ⟨a, ha⟩ | ⟨w, -, hw⟩ | ⟨-, rfl⟩ | rfl := hturn
  · exact hinv.hostAccess ha
  · exact hinv.runWord hw
  · exact hinv
  · exact hinv.applyReset

theorem State.inv_reset : State.reset.Inv where
  params := by decide
  fits := Nat.zero_le _
  canonical := State.reset_inMem_wf
  inside := List.forall_mem_nil _
  cleared := nofun

end Sys2Proof.Machine
end

section
/-! SUPPORT. The statements about the invariant, the frame and the errors of the commands (10_state.md sections 1, 2
and 5, 60_exceptions.md section 2). -/

namespace Sys2Proof.Proofs

open Sys2Proof.Machine

/-- Settles O10: the invariant is kept by each command, each access and the reset input. -/
theorem everyStepKeepsTheInvariant : Obligations.EveryStepKeepsTheInvariant := fun _ _ hinv => hinv.step

/-- Settles O11: the reset state is empty, and the kernel checks R7's constraints on its tables. -/
theorem resetStateMeetsTheInvariant : Obligations.ResetStateMeetsTheInvariant := State.inv_reset

/-- Settles O14: a command completes with at most the stream written, `CAPQ` with at most `CAPVAL`. -/
theorem commandsLeaveTheRestUnchanged : Obligations.CommandsLeaveTheRestUnchanged := by
  intro i s t h
  obtain ⟨hi, _, _, rfl⟩ | ⟨hi, _, _, rfl⟩ := exec_next h
  · exact ⟨rfl, rfl, rfl, rfl, rfl, rfl, rfl, fun _ => rfl, rfl, fun _ => rfl, fun hcapq => nomatch hi.symm.trans hcapq⟩
  · exact ⟨rfl, rfl, rfl, rfl, rfl, rfl, rfl, fun _ => rfl, rfl, fun hno => (nomatch hi.symm.trans hno),
      fun _ => ⟨rfl, fun _ => rfl⟩⟩

/-- Settles O15: each clause is one of the rules on what a command writes, completes with or raises. -/
theorem streamChangesOnlyAsTheSpecSays : Obligations.StreamChangesOnlyAsTheSpecSays := by
  refine ⟨fun i s t h => ⟨fun hi => ?_, ?_, fun hi => ?_, fun herr => ?_, fun hi hok hill => ?_,
    fun _ _ hi herr => ?_⟩, fun _ _ _ => hostAccess_next_stream⟩
  · obtain ⟨b, _, rfl⟩ := completesAppend_of_exec hi h
    exact ⟨b, rfl⟩
  · rintro rfl
    cases h
    rfl
  · obtain ⟨hno, -⟩ | ⟨-, _, _, rfl⟩ := exec_next h
    · exact nomatch hi.symm.trans hno
    · rfl
  · have ht := lowLevelErrorsChangeNothingElse.1 i s t h (by simp [herr]) (.inr herr)
    rw [ht]
  · rw [(failedEncodeLeavesNoOutput.1 i s t hi h hok hill).1]
  · exact exec_encode_next_segment hi h herr

/-- Settles O18: the errors of each command's inversion lemma. -/
theorem eachCommandRaisesOnlyItsErrors : Obligations.EachCommandRaisesOnlyItsErrors := by
  intro i s t h
  cases i with
  | clr => cases h; rfl
  | apb =>
    obtain ⟨hcnt, rfl⟩ | rfl | ⟨_, -, rfl⟩ := exec_apb_next h
    exacts [.inr (.inr ⟨rfl, hcnt⟩), .inr (.inl rfl), .inl rfl]
  | apr =>
    obtain rfl | rfl | ⟨_, -, rfl⟩ := exec_apr_next h
    exacts [.inr (.inr rfl), .inr (.inl rfl), .inl rfl]
  | ecnt =>
    obtain ⟨hver, rfl⟩ | rfl | ⟨_, -, rfl⟩ := exec_ecnt_next h
    exacts [.inr (.inr ⟨rfl, versionOk_eq_false_iff.1 hver⟩), .inr (.inl rfl), .inl rfl]
  | pad =>
    obtain rfl | ⟨_, -, rfl⟩ := exec_pad_next h
    exacts [.inr rfl, .inl rfl]
  | enum => exact exec_encodeCmd_err_ne_noMode (m := .num) h
  | ealn => exact exec_encodeCmd_err_ne_noMode (m := .aln) h
  | ebyt => exact ⟨exec_encodeCmd_err_ne_noMode (m := .byt) h, exec_ebyt_err_ne_charset h⟩
  | ebest =>
    obtain he | he | ⟨_, he⟩ := encodeCommand_next_err h
    exacts [.inl he, .inr (.inr he), .inr (.inl (encodeBest_err he))]
  | capq =>
    obtain ⟨hver, rfl⟩ | ⟨_, rfl⟩ := exec_capq_next h
    exacts [.inr ⟨rfl, versionOk_eq_false_iff.1 hver⟩, .inl rfl]

end Sys2Proof.Proofs
end

section
/-! SUPPORT. Updates a command does not notice: of a field it does not read, or of IN bytes it does not read
(10_state.md R32, 20_memory.md R66). -/

namespace Sys2Proof.Machine

/-- The outcome with `f` applied to the next state, if there is one. -/
def mapNext (f : State → State) : Outcome → Outcome
  | .next s => .next (f s)
  | .fault r => .fault r
  | .refused r => .refused r

/-- `f` leaves all that a command other than `CAPQ` reads but the IN window, and commutes with what it writes. -/
structure Unnoticed (f : State → State) : Prop where
  stream : ∀ s, (f s).stream = s.stream
  srcOff : ∀ s, (f s).srcOff = s.srcOff
  srcLen : ∀ s, (f s).srcLen = s.srcLen
  cfg : ∀ s, (f s).cfg = s.cfg
  completes : ∀ s b e, f ((s.setStream b).complete e) = ((f s).setStream b).complete e

namespace Unnoticed

variable {f : State → State}

theorem raise (hf : Unnoticed f) (e : ErrCode) (s : State) : raise e (f s) = mapNext f (raise e s) := by
  have h : f (s.complete e) = ((f s).setStream (f s).stream).complete e := by
    rw [hf.stream]
    exact hf.completes s s.stream e
  exact congrArg Host.Outcome.next h.symm

theorem succeed_setStream (hf : Unnoticed f) (b : Bits) (s : State) :
    succeed ((f s).setStream b) = mapNext f (succeed (s.setStream b)) :=
  congrArg Host.Outcome.next (hf.completes s b .ok).symm

theorem succeed_append (hf : Unnoticed f) (b : Bits) (s : State) :
    succeed ((f s).append b) = mapNext f (succeed (s.append b)) := by
  have happend : (f s).append b = (f s).setStream (s.stream ++ b) := by
    rw [← hf.stream s]
    rfl
  rw [happend]
  exact hf.succeed_setStream (s.stream ++ b) s

theorem bitLen (hf : Unnoticed f) (s : State) : (f s).bitLen = s.bitLen := congrArg List.length (hf.stream s)

theorem room (hf : Unnoticed f) (s : State) (k : Nat) : (f s).room k = s.room k := by
  rw [State.room, State.room, hf.bitLen, hf.cfg]

theorem srcFits (hf : Unnoticed f) (s : State) : (f s).srcFits = s.srcFits := by
  rw [State.srcFits, State.srcFits, hf.srcOff, hf.srcLen, hf.cfg]

theorem appendOrRange (hf : Unnoticed f) (b : Bits) (s : State) :
    appendOrRange b (f s) = mapNext f (appendOrRange b s) := by
  rw [Machine.appendOrRange, Machine.appendOrRange, hf.room]
  split
  · exact hf.succeed_append b s
  · exact hf.raise .range s

theorem execApb (hf : Unnoticed f) (cnt : BitVec 5) (val : Half) (s : State) :
    execApb cnt val (f s) = mapNext f (execApb cnt val s) := by
  unfold Machine.execApb
  split
  · exact hf.raise .illegal s
  · exact hf.appendOrRange _ s

theorem execEcnt (hf : Unnoticed f) (m : Mode) (ver : BitVec 6) (count : Half) (s : State) :
    execEcnt m ver count (f s) = mapNext f (execEcnt m ver count s) := by
  unfold Machine.execEcnt
  split
  · exact hf.raise .version s
  split
  · exact hf.raise .range s
  · exact hf.appendOrRange _ s

theorem execPad (hf : Unnoticed f) (tgt : Half) (s : State) : execPad tgt (f s) = mapNext f (execPad tgt s) := by
  rw [Machine.execPad, Machine.execPad, hf.cfg, hf.bitLen, hf.stream]
  split
  · exact hf.raise .range s
  split
  · exact hf.raise .range s
  · exact hf.succeed_setStream _ s

/-- `APR` reads the contributing bytes alone, and only when the source has that many. -/
theorem execApr (hf : Unnoticed f) {n : Half} {s : State}
    (hread : n.toNat ≤ 8 * s.srcLen.toNat → (f s).readSrc (bytesFor n.toNat) = s.readSrc (bytesFor n.toNat)) :
    execApr n (f s) = mapNext f (execApr n s) := by
  rw [Machine.execApr, Machine.execApr, hf.srcFits, hf.srcLen, hf.room]
  split
  · exact hf.raise .illegal s
  split
  · exact hf.raise .range s
  next hsrc =>
    split
    · exact hf.raise .range s
    · rw [hread (not_lt.1 hsrc)]
      cases s.readSrc (bytesFor n.toNat) with
      | unwritten => rfl
      | bytes d => exact hf.succeed_append _ s

theorem commit (hf : Unnoticed f) (r : SegResult) (s : State) : commit r (f s) = mapNext f (commit r s) := by
  cases r with
  | ok b => exact hf.succeed_setStream b s
  | err e => exact congrArg Host.Outcome.next (hf.completes s [] e).symm

theorem encodeCommand (hf : Unnoticed f) (enc : List Byte → SegResult) {s : State} (hread : (f s).text = s.text) :
    encodeCommand enc (f s) = mapNext f (encodeCommand enc s) := by
  rw [Machine.encodeCommand, Machine.encodeCommand, hf.srcFits, hread]
  split
  · exact hf.raise .illegal s
  · cases s.text with
    | unwritten => rfl
    | bytes l => exact hf.commit (enc l) s

theorem exec_encode (hf : Unnoticed f) {i : Instr} (hi : isEncode i = true) {s : State} (hread : (f s).text = s.text) :
    exec i (f s) = mapNext f (exec i s) := by
  obtain ⟨enc, -, hexec⟩ := exists_encoder hi
  rw [hexec, hexec, hf.cfg]
  exact hf.encodeCommand (enc s.cfg) hread

/-- A command other than `CAPQ` does the same before and after `f`, if it reads the same source bytes. -/
theorem exec (hf : Unnoticed f) {i : Instr} (hi : isCapq i = false) {s : State}
    (htext : isEncode i = true → (f s).text = s.text)
    (hsrc : ∀ n, i = .apr n → n.toNat ≤ 8 * s.srcLen.toNat →
      (f s).readSrc (bytesFor n.toNat) = s.readSrc (bytesFor n.toNat)) :
    exec i (f s) = mapNext f (exec i s) := by
  cases i with
  | clr => exact hf.succeed_setStream [] s
  | apb => exact hf.execApb ..
  | apr => exact hf.execApr (hsrc _ rfl)
  | ecnt => exact hf.execEcnt ..
  | pad => exact hf.execPad ..
  | enum | ealn | ebyt | ebest => exact hf.exec_encode rfl (htext rfl)
  | capq => cases hi

end Unnoticed

theorem unnoticed_capVal (v : Half) : Unnoticed fun s => { s with capVal := v } where
  stream _ := rfl
  srcOff _ := rfl
  srcLen _ := rfl
  cfg _ := rfl
  completes _ _ _ := rfl

theorem unnoticed_inMem (m : Memory) : Unnoticed fun s => { s with inMem := m } where
  stream _ := rfl
  srcOff _ := rfl
  srcLen _ := rfl
  cfg _ := rfl
  completes _ _ _ := rfl

/-- Completion overwrites the code it finds, and no command reads it. -/
theorem exec_with_err (i : Instr) (s : State) (e : ErrCode) : exec i { s with err := e } = exec i s := by
  cases i <;> rfl

theorem Memory.readBytes_congr {m m' : Memory} {off n : Nat} (h : ∀ k, k < n → m.read (off + k) = m'.read (off + k)) :
    m.readBytes off n = m'.readBytes off n := by
  induction n generalizing off with
  | zero => rfl
  | succ n ih =>
    have hhead : m.read off = m'.read off := h 0 (Nat.succ_pos n)
    have htail : m.readBytes (off + 1) n = m'.readBytes (off + 1) n := ih fun k hk => by
      have := h (k + 1) (Nat.succ_lt_succ hk)
      rwa [Nat.add_comm k 1, ← Nat.add_assoc] at this
    rw [Memory.readBytes, Memory.readBytes, hhead, htail]

theorem exec_capq_with_inMem (tbl : TblSel) (lvl : Level) (ver : BitVec 6) (s : State) (m : Memory) :
    exec (.capq tbl lvl ver) { s with inMem := m } =
      mapNext (fun t => { t with inMem := m }) (exec (.capq tbl lvl ver) s) := by
  simp only [exec, execCapq]
  split
  · rfl
  · rfl

/-- Another window that agrees on the bytes a command reads makes no difference to the command. -/
theorem exec_with_inMem {i : Instr} {s : State} {m : Memory}
    (h : ∀ k, k < s.srcLen.toNat → (∀ n : Half, i = .apr n → k < bytesFor n.toNat) →
      m.read (s.srcOff.toNat + k) = s.inMem.read (s.srcOff.toNat + k)) :
    exec i { s with inMem := m } = mapNext (fun t => { t with inMem := m }) (exec i s) := by
  cases hi : isCapq i with
  | true =>
    cases i with
    | capq => exact exec_capq_with_inMem ..
    | clr | apb | apr | ecnt | pad | enum | ealn | ebyt | ebest => cases hi
  | false =>
    refine (unnoticed_inMem m).exec hi (fun henc => ?_) fun n hn hsrc => ?_
    · exact Memory.readBytes_congr fun k hk => h k hk (by rintro n rfl; cases henc)
    · refine Memory.readBytes_congr fun k hk => h k ?_ (by rintro n' rfl; cases hn; exact hk)
      rw [bytesFor] at hk
      omega

end Sys2Proof.Machine
end

section
/-! SUPPORT. The statements about what a command does not depend on (10_state.md R32, 20_memory.md R66). -/

namespace Sys2Proof.Proofs

open Sys2Proof.Machine

/-- Settles O19: completion overwrites `ERR`, and `CAPVAL` is a field that only `CAPQ` notices. -/
theorem commandsDoNotReadEarlierResults : Obligations.CommandsDoNotReadEarlierResults := by
  refine ⟨exec_with_err, fun i s t v hi h => ?_⟩
  have hrun := (unnoticed_capVal v).exec hi (s := s) (fun _ => rfl) fun _ _ _ => rfl
  rwa [h] at hrun

/-- Settles O20: the window is read through the bytes of the source region alone, by `APR` only as far as they
contribute. -/
theorem onlyTheBytesReadMatter : Obligations.OnlyTheBytesReadMatter := by
  intro i s m hagree
  have hrun := exec_with_inMem hagree
  cases h : exec i s with
  | next | fault | refused => rwa [h] at hrun

end Sys2Proof.Proofs
end

section
/-! SUPPORT. The value and the width of a digit group (42_mode_encoders.md R136, R137). -/

namespace Sys2Proof.Machine

/-- How many digits of a group are left without its leading zeros, which may be none. -/
def significantLen (g : List Byte) : Nat := (g.dropWhile (fun c => c == 0x30#8)).length

theorem length_groupBits (g : List Byte) : (groupBits g).length = 1 + 3 * max 1 (significantLen g) :=
  length_bits _ _

theorem significantLen_le (g : List Byte) : significantLen g ≤ g.length := List.length_dropWhile_le _ _

theorem significantLen_zero_cons (g : List Byte) : significantLen (0x30#8 :: g) = significantLen g := rfl

theorem significantLen_cons_of_ne {c : Byte} (h : c ≠ 0x30#8) (g : List Byte) :
    significantLen (c :: g) = g.length + 1 := by
  simp [significantLen, h]

theorem digitVal_pos {c : Byte} (hlo : 0x30 ≤ c.toNat) (h : c ≠ 0x30#8) : 1 ≤ digitVal c := by
  have hne : c.toNat ≠ 0x30 := fun hc => h (BitVec.eq_of_toNat_eq hc)
  rw [digitVal]
  omega

theorem groupSum_lt {g : List Byte} (h : ∀ c ∈ g, c.toNat ≤ 0x39) : groupSum g < 10 ^ g.length := by
  induction g with
  | nil => decide
  | cons c g ih =>
    obtain ⟨hc, hg⟩ := List.forall_mem_cons.1 h
    have htail := ih hg
    have hdigit : digitVal c ≤ 9 := by rw [digitVal]; omega
    have hhead : digitVal c * 10 ^ g.length ≤ 9 * 10 ^ g.length := Nat.mul_le_mul_right _ hdigit
    rw [groupSum_cons, List.length_cons, Nat.pow_succ]
    omega

/-- A group of digits with `d` significant ones has a value of exactly `d` decimal digits. -/
theorem groupVal_bounds {g : List Byte} (h : validText .num g = true) :
    groupVal g < 10 ^ significantLen g ∧ (1 ≤ significantLen g → 10 ^ (significantLen g - 1) ≤ groupVal g) := by
  rw [groupVal_eq_groupSum]
  rw [validText_num_iff] at h
  induction g with
  | nil => decide
  | cons c g ih =>
    obtain ⟨⟨hlo, hhi⟩, hg⟩ := List.forall_mem_cons.1 h
    by_cases hc : c = 0x30#8
    · subst hc
      have hval : groupSum (0x30#8 :: g) = groupSum g := by simp [groupSum_cons, digitVal]
      rw [hval, significantLen_zero_cons]
      exact ih hg
    · have hall : ∀ d ∈ c :: g, d.toNat ≤ 0x39 := fun d hd => (h d hd).2
      rw [significantLen_cons_of_ne hc]
      refine ⟨groupSum_lt hall, fun _ => ?_⟩
      rw [Nat.add_sub_cancel, groupSum_cons]
      exact (Nat.le_mul_of_pos_left _ (digitVal_pos hlo hc)).trans (Nat.le_add_right ..)

/-- R137, from the bounds of `groupVal_bounds` at each of the four possible counts of significant digits. -/
theorem length_groupBits_by_value {g : List Byte} (hvalid : validText .num g = true) (hlen : g.length ≤ 3) :
    (groupVal g ≤ 9 → (groupBits g).length = 4) ∧
    (10 ≤ groupVal g → groupVal g ≤ 99 → (groupBits g).length = 7) ∧
    (100 ≤ groupVal g → (groupBits g).length = 10) ∧
    groupVal g < 2 ^ (groupBits g).length := by
  obtain ⟨hlt, hge⟩ := groupVal_bounds hvalid
  have hd := (significantLen_le g).trans hlen
  rw [length_groupBits]
  generalize significantLen g = d at *
  interval_cases d <;> simp at hlt hge ⊢ <;> omega

end Sys2Proof.Machine
end

section
/-! SUPPORT. The length of a segment before padding (42_mode_encoders.md R144). -/

namespace Sys2Proof.Machine

theorem length_numPayload (t : List Byte) :
    (numPayload t).length = ((List.range ((t.length + 2) / 3)).map (fun k =>
      1 + 3 * groupSignificant ((t.drop (3 * k)).take 3))).sum := by
  simp only [numPayload_eq_flatMap, List.length_flatMap, groupBits, length_bits, groupDigits_eq_groupSignificant]

/-- A group without a leading zero has all its digits. -/
theorem length_groupBits_of_head_ne {c : Byte} (h : c ≠ 0x30#8) (g : List Byte) :
    (groupBits (c :: g)).length = 1 + 3 * (g.length + 1) := by
  rw [length_groupBits, significantLen_cons_of_ne h, max_eq_right (by omega)]

/-- With no leading zero in any group, a group of 3, 2 or 1 digits has 10, 7 or 4 bits. -/
theorem length_numPayload_of_no_leading_zero : ∀ t : List Byte, (∀ k, 3 * k < t.length → t.getD (3 * k) 0 ≠ 0x30) →
    (numPayload t).length = 10 * (t.length / 3) + [0, 4, 7].getD (t.length % 3) 0
  | [], _ => rfl
  | [a], h => by simp [numPayload, length_groupBits_of_head_ne (c := a) (h 0 (by simp))]
  | [a, b], h => by simp [numPayload, length_groupBits_of_head_ne (c := a) (h 0 (by simp))]
  | a :: b :: c :: rest, h => by
    have hrest := length_numPayload_of_no_leading_zero rest fun k hk =>
      h (k + 1) (by simp only [List.length_cons]; omega)
    have hlen : (a :: b :: c :: rest).length = rest.length + 3 := rfl
    rw [numPayload, List.length_append, length_groupBits_of_head_ne (c := a) (h 0 (by simp)) [b, c], hrest, hlen,
      Nat.add_div_right _ (by decide), Nat.add_mod_right]
    simp only [List.length_cons, List.length_nil]
    omega

theorem length_alnPayload : ∀ t : List Byte, (alnPayload t).length = 11 * (t.length / 2) + 6 * (t.length % 2)
  | [] => rfl
  | [c] => by simp [alnPayload]
  | a :: b :: rest => by
    have hrest := length_alnPayload rest
    have hlen : (a :: b :: rest).length = rest.length + 2 := rfl
    rw [alnPayload, List.length_append, length_bits, hrest, hlen]
    omega

/-- `EncodeSeg` succeeds exactly when all its checks pass. -/
theorem exists_encodeSeg_ok_iff {p : Params} {m : Mode} {lvl : Level} {ver : BitVec 6} {t : List Byte} :
    (∃ b, encodeSeg p m lvl ver t = .ok b) ↔
      validText m t = true ∧ 1 ≤ ver.toNat ∧ ver.toNat ≤ 40 ∧
      ∃ w, countWidth m ver = some w ∧ t.length < 2 ^ w ∧
        (segmentData m w t).length ≤ 8 * p.codewords lvl ver.toNat := by
  constructor
  · rintro ⟨b, hb⟩
    obtain ⟨hvalid, w, hw, hcount, hfits, -⟩ := encodeSeg_ok.1 hb
    obtain ⟨hlo, hhi⟩ := version_of_countWidth hw
    exact ⟨hvalid, hlo, hhi, w, hw, hcount, hfits⟩
  · rintro ⟨hvalid, -, -, w, hw, hcount, hfits⟩
    exact ⟨_, encodeSeg_ok.2 ⟨hvalid, w, hw, hcount, hfits, rfl⟩⟩

end Sys2Proof.Machine
end

section
/-! SUPPORT. `EBYT` by hand, and `EBEST` by the modes' own commands (42_mode_encoders.md section 5,
44_selector_tables.md R171). -/

namespace Sys2Proof.Machine

theorem execAll_cons_of_next {i : Instr} {s t : State} (h : exec i s = .next t) (rest : List Instr) :
    execAll (i :: rest) s = execAll rest t := by
  rw [execAll, h]

/-- `s` with its command completed without error and the stream `b`. -/
def State.holding (s : State) (b : Bits) : State := (s.setStream b).complete .ok

@[simp] theorem State.holding_bitLen (s : State) (b : Bits) : (s.holding b).bitLen = b.length := rfl

@[simp] theorem State.holding_srcLen (s : State) (b : Bits) : (s.holding b).srcLen = s.srcLen := rfl

@[simp] theorem State.holding_cfg (s : State) (b : Bits) : (s.holding b).cfg = s.cfg := rfl

theorem State.TextReady.holding {s : State} {l : List Byte} (h : s.TextReady l) (b : Bits) :
    (s.holding b).TextReady l :=
  ⟨h.legal, h.length, h.written⟩

/-- `APR` of a ready text as a whole appends its bytes. -/
theorem exec_apr_of_ready {s : State} {l : List Byte} (hready : s.TextReady l) (hbits : 8 * s.srcLen.toNat < 2 ^ 16)
    (hroom : s.bitLen + 8 * s.srcLen.toNat ≤ 8 * s.cfg.bufBytes) :
    exec (.apr (BitVec.ofNat 16 (8 * s.srcLen.toNat))) s = .next ((s.append (byteBits l)).complete .ok) := by
  have hn : (BitVec.ofNat 16 (8 * s.srcLen.toNat)).toNat = 8 * s.srcLen.toNat := Nat.mod_eq_of_lt hbits
  have hlen := hready.length
  have hall : (byteBits l).take (8 * s.srcLen.toNat) = byteBits l :=
    List.take_of_length_le (by rw [length_byteBits, hlen])
  rw [exec_apr_of_written hready.legal hn.le (by rwa [hn]) (by rw [hn, bytesFor]; omega)
    (fun k hk => hready.written k (hlen ▸ hk)), hn, hall]

/-- `CLR`, the mode indicator, the count, the text and the padding, each where the one before left off. -/
theorem execAll_hand_built_byte_segment {lvl : Level} {ver : BitVec 6} {s : State} {l : List Byte} {w : Nat}
    (hvalid : s.cfg.valid = true) (hready : s.TextReady l) (hw : countWidth .byt ver = some w)
    (hcount : l.length < 2 ^ w) (hfits : (segmentData .byt w l).length ≤ 8 * s.cfg.codewords lvl ver.toNat) :
    execAll [.clr, .apb 4#5 0x4000#16, .ecnt .byt ver s.srcLen, .apr (BitVec.ofNat 16 (8 * s.srcLen.toNat)),
      .pad (BitVec.ofNat 16 (s.cfg.codewords lvl ver.toNat))] s =
      .next ((s.setStream (padTo (segmentData .byt w l) (8 * s.cfg.codewords lvl ver.toNat))).complete .ok) := by
  obtain ⟨-, hver⟩ := version_of_countWidth hw
  obtain ⟨-, hcap⟩ := Params.codewords_bounds hvalid lvl (ver := ver.toNat) (by omega)
  obtain ⟨hbuf, -⟩ := Params.sizes hvalid
  have hlen := hready.length
  have hpayload : (payload .byt l).length = 8 * s.srcLen.toNat := (length_byteBits l).trans (by rw [hlen])
  rw [length_segmentData, hpayload] at hfits
  have hclr : exec .clr s = .next (s.holding []) := rfl
  have hapb : exec (.apb 4#5 0x4000#16) (s.holding []) = .next (s.holding (modeIndicator .byt)) :=
    exec_apb_of_room (by decide) (by simp; omega)
  have hecnt : exec (.ecnt .byt ver s.srcLen) (s.holding (modeIndicator .byt)) =
      .next (s.holding (modeIndicator .byt ++ bits w s.srcLen.toNat)) :=
    exec_ecnt_of_room hw (by omega) (by simp; omega)
  have hapr : exec (.apr (BitVec.ofNat 16 (8 * s.srcLen.toNat)))
      (s.holding (modeIndicator .byt ++ bits w s.srcLen.toNat)) = .next (s.holding (segmentData .byt w l)) := by
    have h := exec_apr_of_ready (hready.holding (modeIndicator .byt ++ bits w s.srcLen.toNat))
      (by simp; omega) (by simp; omega)
    rw [segmentData, hlen]
    exact h
  have hpad : exec (.pad (BitVec.ofNat 16 (s.cfg.codewords lvl ver.toNat))) (s.holding (segmentData .byt w l)) =
      .next (s.holding (padTo (segmentData .byt w l) (8 * s.cfg.codewords lvl ver.toNat))) := by
    have htgt : (BitVec.ofNat 16 (s.cfg.codewords lvl ver.toNat)).toNat = s.cfg.codewords lvl ver.toNat :=
      Nat.mod_eq_of_lt (by omega)
    rw [exec_pad_of_fits (by rwa [htgt]) (by rw [htgt]; simpa [hpayload] using hfits), htgt]
    rfl
  rw [execAll_cons_of_next hclr, execAll_cons_of_next hapb, execAll_cons_of_next hecnt, execAll_cons_of_next hapr,
    execAll_cons_of_next hpad]
  rfl

/-- On a ready text a successful encode command of one mode has committed that mode's segment. -/
theorem exec_encodeCmd_ready_next_ok {m : Mode} {lvl : Level} {ver : BitVec 6} {s u : State} {t : List Byte}
    (hready : s.TextReady t) (h : exec (encodeCmd m lvl ver) s = .next u) (herr : u.err = .ok) :
    ∃ b, encodeSeg s.cfg m lvl ver t = .ok b ∧ u = (s.setStream b).complete .ok := by
  rw [exec_encodeCmd, encodeCommand_ready hready] at h
  obtain ⟨b, hb, rfl⟩ | ⟨e, he, rfl⟩ := commit_next h
  · exact ⟨b, hb, rfl⟩
  · rw [State.complete_err] at herr
    exact absurd (herr ▸ he) (encodeSeg_ne_err_ok s.cfg m lvl ver t)

/-- `EBEST` does what a successful command of one mode does, when every mode before it fails. -/
theorem exec_ebest_of_first {m : Mode} {lvl : Level} {ver : BitVec 6} {s u : State} {t : List Byte}
    (hready : s.TextReady t) (h : exec (encodeCmd m lvl ver) s = .next u) (herr : u.err = .ok)
    (hnum : m ≠ .num → validText .num t = false) (haln : m = .byt → validText .aln t = false) :
    exec (.ebest lvl ver) s = .next u := by
  obtain ⟨b, hb, rfl⟩ := exec_encodeCmd_ready_next_ok hready h herr
  rw [exec_ebest_of_ready hready, encodeBest_of_first hb
    (fun hm => ⟨_, encodeSeg_of_invalid (hnum hm) s.cfg lvl ver⟩)
    (fun hm => ⟨_, encodeSeg_of_invalid (haln hm) s.cfg lvl ver⟩)]
  rfl

/-- Every digit is in the alphanumeric alphabet. -/
theorem validText_aln_of_num {t : List Byte} (h : validText .num t = true) : validText .aln t = true := by
  have hdigits : ∀ c ∈ t, isDigit c = true := List.all_eq_true.1 h
  refine List.all_eq_true.2 fun c hc => ?_
  rw [alnVal, if_pos (hdigits c hc), Option.isSome_some]

end Sys2Proof.Machine
end

section
/-! SUPPORT. The statements about the widths of digit groups, the lengths of segments, and the equivalences between
commands (42_mode_encoders.md sections 3 to 5, 44_selector_tables.md section 1). -/

namespace Sys2Proof.Proofs

open Sys2Proof.Machine

/-- Settles O36: a group's value has as many decimal digits as the group has significant ones. -/
theorem numericGroupWidthByValue : Obligations.NumericGroupWidthByValue :=
  ⟨fun _ hvalid _ hlen => length_groupBits_by_value hvalid hlen, rfl, rfl, rfl, rfl, rfl, rfl⟩

/-- Settles O42: the payload's length in each mode, and the checks of `EncodeSeg`. -/
theorem encodeSucceedsExactlyWhenItFits : Obligations.EncodeSucceedsExactlyWhenItFits := by
  refine ⟨fun w t _ => ⟨?_, fun hzero => ?_⟩, fun w t _ => ?_, fun w t => ?_, fun _ _ _ _ _ => exists_encodeSeg_ok_iff⟩
  · rw [length_segmentData, payload, length_numPayload]
  · rw [length_segmentData, payload, length_numPayload_of_no_leading_zero t hzero, ← Nat.add_assoc]
  · rw [length_segmentData, payload, length_alnPayload, ← Nat.add_assoc]
  · rw [length_segmentData, payload, length_byteBits]

/-- Settles O46: the five commands append the parts of the segment that `EBYT` makes of the same text. -/
theorem handBuiltByteSegmentEqualsEbyt : Obligations.HandBuiltByteSegmentEqualsEbyt := by
  intro lvl ver s t hvalid h herr
  obtain ⟨l, b, hready, hb, rfl⟩ := exec_encodeCmd_next_ok (m := .byt) h herr
  obtain ⟨-, w, hw, hcount, hfits, rfl⟩ := encodeSeg_ok.1 hb
  exact execAll_hand_built_byte_segment hvalid hready hw hcount hfits

/-- Settles O48: in each case the modes before the one that succeeds fail on their alphabet. -/
theorem selectorOutcomes : Obligations.SelectorOutcomes := by
  intro lvl ver s u t hready herr
  refine ⟨fun _ h => ?_, fun hnum _ h => ?_, fun haln h => ?_⟩
  · exact exec_ebest_of_first (m := .num) hready h herr (absurd rfl) nofun
  · exact exec_ebest_of_first (m := .aln) hready h herr (fun _ => hnum) nofun
  · have hnum : validText .num t = false :=
      Bool.eq_false_iff.2 fun hdigits => nomatch haln.symm.trans (validText_aln_of_num hdigits)
    exact ⟨exec_ebest_of_first (m := .byt) hready h herr (fun _ => hnum) fun _ => haln,
      exec_encodeCmd_of_err (m := .num) hready (encodeSeg_of_invalid hnum s.cfg lvl ver),
      exec_encodeCmd_of_err (m := .aln) hready (encodeSeg_of_invalid haln s.cfg lvl ver)⟩

end Sys2Proof.Proofs
end
